-- ==== Sys2Proof/Word.lean ====
section
/-! DEFINITION. The widths of PTOW's words (R8, R9 of `00_scope.md`). Every value of the block is an unsigned
integer of a stated width; bit 0 is the least significant bit. -/

namespace Sys2Proof

/-- `DATA_W` = 8: a frame byte, a reading, a pin number, a command argument (R6, R8). -/
abbrev Byte := BitVec 8

/-- `CNT_W` = 15: the counter, the timeout operand `T`, the duration `D` (R8, R36, R93, R94). -/
abbrev Count := BitVec 15

/-- `CMD_W` = 10: the command word `{cmd_op, cmd_arg}` (R90). -/
abbrev CmdWord := BitVec 10

/-- The pulse timer's request and result words `PTREQ`, `PTRES` (R93, R94). -/
abbrev PtWord := BitVec 16

/-- `ST_W` = 3: the code of `ST`, the whole encoding of a sequencer micro-operation (R95). -/
abbrev StCode := BitVec 3

/-- The level of the line, one bit: `false` is 0 ("low"), `true` is 1 ("high") (R9). -/
abbrev Level := Bool

end Sys2Proof
end

