-- ==== Sys2Proof/Syntax.lean ====
section
/-! DEFINITION. The thirteen operations of PTOW (R100 of `30_encoding.md`), one constructor per row of
spec/opcode_table.json. -/

namespace Sys2Proof

/-- An operation of the block: a host command (format CMD), the pulse timer's measurement (format PT), or a
sequencer micro-operation (format SEQ). -/
inductive Instr where
  /-- CFGPIN n: select the line (R122). -/
  | cfgPin (n : Byte)
  /-- READ: start one read attempt; its `arg` is ignored (R92, R123). -/
  | read
  /-- GETHUM: read the humidity of the last good frame; its `arg` is ignored (R92, R124). -/
  | getHum
  /-- GETTEMP: read the temperature of the last good frame; its `arg` is ignored (R92, R125). -/
  | getTemp
  /-- MEASURE(T, L): one edge of a measurement of how long the line stays at `level`, bounded by `timeout` (R140). -/
  | measure (level : Level) (timeout : Count)
  /-- IDLE, `ST` = 0 (R162). -/
  | idle
  /-- REQ_LOW, `ST` = 1 (R165). -/
  | reqLow
  /-- REQ_HIGH, `ST` = 2 (R167). -/
  | reqHigh
  /-- ACK_LOW, `ST` = 3 (R169). -/
  | ackLow
  /-- ACK_HIGH, `ST` = 4 (R171). -/
  | ackHigh
  /-- BIT_LOW, `ST` = 5 (R173). -/
  | bitLow
  /-- BIT_HIGH, `ST` = 6 (R176). -/
  | bitHigh
  /-- VALIDATE, `ST` = 7 (R179). -/
  | validate
deriving DecidableEq, Repr

end Sys2Proof
end

