-- ==== Sys2Proof/WellFormed.lean ====
section
/-! DEFINITION. Which terms of `Instr` are operations of the block: the operand range of R98 (`30_encoding.md`);
every other operand of every other operation is legal at every value (R92, R97, R101). -/

namespace Sys2Proof

/-- The legal range of the timeout operand: 0 .. 2^15 − 2 = 32766 (R98). -/
def timeoutLegal (t : Count) : Bool := decide (t.toNat ≤ 32766)

/-- The one check on operands: MEASURE's timeout operand (R98, U11). -/
def Instr.wf : Instr → Bool
  | .cfgPin _ => true
  | .read => true
  | .getHum => true
  | .getTemp => true
  | .measure _ t => timeoutLegal t
  | .idle => true
  | .reqLow => true
  | .reqHigh => true
  | .ackLow => true
  | .ackHigh => true
  | .bitLow => true
  | .bitHigh => true
  | .validate => true

end Sys2Proof
end

