-- ==== Sys2Proof/Decode.lean ====
section
/-! DEFINITION. The three encodings of `30_encoding.md`: format CMD (R90 to R92), format PT (R93, R98), format SEQ
(R95); the decoder, total and rejecting by name; and the encoder. The formats live on different ports, so an encoded
word carries its format: nothing in a word tells one format from another (R90, R100). -/

namespace Sys2Proof

/-- A word on one of the block's three ports: the command port (R41), the timer's request port (R43), the state
code that selects a micro-operation (R95). -/
inductive Encoded where
  | cmd (w : CmdWord)
  | pt (w : PtWord)
  | seq (w : StCode)
deriving DecidableEq, Repr

/-- Why a word is rejected. -/
inductive DecodeError where
  /-- `PTREQ.T` = 32767 (R98: "`T` = 32767 is refused by the model"; U11). Safe: no meaning is given to it. -/
  | timeoutOperand
deriving DecidableEq, Repr

/-- Field `op`, bits 9:8 of a command word (R90). -/
def cmdOpField (w : CmdWord) : BitVec 2 := w.extractLsb' 8 2

/-- Field `arg`, bits 7:0 of a command word (R90). -/
def cmdArgField (w : CmdWord) : Byte := w.extractLsb' 0 8

/-- Field `L`, bit 15 of a request word (R93). -/
def ptLevelField (w : PtWord) : Level := w.getLsbD 15

/-- Field `T`, bits 14:0 of a request word (R93). -/
def ptTimeoutField (w : PtWord) : Count := w.extractLsb' 0 15

/-- The decoder of the command port, total: all four values of `op` are used (R91, R100, R101). -/
def decodeCmd (w : CmdWord) : Instr :=
  if cmdOpField w = 0b00#2 then .cfgPin (cmdArgField w)
  else if cmdOpField w = 0b01#2 then .read
  else if cmdOpField w = 0b10#2 then .getHum
  else .getTemp

/-- The decoder of the timer's request word: every word with `T` ≤ 32766 is a MEASURE request (R100). -/
def decodePt (w : PtWord) : Except DecodeError Instr :=
  if timeoutLegal (ptTimeoutField w) then .ok (.measure (ptLevelField w) (ptTimeoutField w))
  else .error .timeoutOperand

/-- The micro-operation selected by a value of `ST`; all eight values are used (R25, R95). -/
def decodeSeq (w : StCode) : Instr :=
  if w = 0b000#3 then .idle
  else if w = 0b001#3 then .reqLow
  else if w = 0b010#3 then .reqHigh
  else if w = 0b011#3 then .ackLow
  else if w = 0b100#3 then .ackHigh
  else if w = 0b101#3 then .bitLow
  else if w = 0b110#3 then .bitHigh
  else .validate

/-- The decoder, on a word of any format. -/
def decode : Encoded → Except DecodeError Instr
  | .cmd w => .ok (decodeCmd w)
  | .pt w => decodePt w
  | .seq w => .ok (decodeSeq w)

/-- The command word `{op, arg}` (R90). -/
def cmdWord (op : BitVec 2) (arg : Byte) : CmdWord := op ++ arg

/-- The request word `{L, T}` (R93). -/
def ptWord (level : Level) (timeout : Count) : PtWord := BitVec.ofBool level ++ timeout

/-- The encoder. READ, GETHUM and GETTEMP ignore `arg` and an assembler writes 0 there (R92). -/
def encode : Instr → Encoded
  | .cfgPin n => .cmd (cmdWord 0b00#2 n)
  | .read => .cmd (cmdWord 0b01#2 0#8)
  | .getHum => .cmd (cmdWord 0b10#2 0#8)
  | .getTemp => .cmd (cmdWord 0b11#2 0#8)
  | .measure level timeout => .pt (ptWord level timeout)
  | .idle => .seq 0b000#3
  | .reqLow => .seq 0b001#3
  | .reqHigh => .seq 0b010#3
  | .ackLow => .seq 0b011#3
  | .ackHigh => .seq 0b100#3
  | .bitLow => .seq 0b101#3
  | .bitHigh => .seq 0b110#3
  | .validate => .seq 0b111#3

/-- Which port a table word of `nbits` bits is meant for. A row of width 3 takes one byte, a row of width 10 or 16
takes two; bits above a row's width must be 0. DESIGN CHOICE (log 11): of the two-byte words, those below 2^10 are
read as command words, the others as request words, since the word itself does not name its port. -/
def tablePort (nbits w : Nat) : Option Encoded :=
  if nbits = 3 ∨ nbits = 8 then
    if w < 8 then some (.seq (BitVec.ofNat 3 w)) else none
  else if nbits = 10 ∨ nbits = 16 then
    if w < 1024 then some (.cmd (BitVec.ofNat 10 w))
    else if nbits = 16 ∧ w < 65536 then some (.pt (BitVec.ofNat 16 w))
    else none
  else none

/-- The instruction the decoder reads from a table word of `nbits` bits. -/
def decodeTableWord (nbits w : Nat) : Option Instr :=
  match tablePort nbits w with
  | none => none
  | some e =>
    match decode e with
    | .ok i => some i
    | .error _ => none

end Sys2Proof
end

