-- ==== Sys2Proof/Config.lean ====
section
/-! DEFINITION. What is fixed for the block (R6 of `00_scope.md`), the parameters it takes with their defaults
(R7), and the free values: opaque constants with no body, about which nothing can be proved. -/

namespace Sys2Proof

/-- `T_ACK_LOW`: "expecting level=low, timeout=85µs" (R6). -/
def Config.tAckLow : Count := 85#15

/-- `T_ACK_HIGH`: "expecting level=high, timeout=85µs" (R6). -/
def Config.tAckHigh : Count := 85#15

/-- `T_BIT_LOW`: "expecting level=low, timeout=56µs" (R6). -/
def Config.tBitLow : Count := 56#15

/-- `T_BIT_HIGH`: "expecting level=high, timeout=75µs" (R6). -/
def Config.tBitHigh : Count := 75#15

/-- `BIT_THRESH`: a high duration strictly above this is bit 1 (R6). -/
def Config.bitThresh : Nat := 40

/-- The two parameters the source bounds but does not fix (R7), in ticks. They are configuration; State carries
them unchanged (DESIGN CHOICE, safe: every statement holds for every legal value; log 4). -/
structure Params where
  /-- `T_REQ_LOW`: ticks the block drives the line low. -/
  tReqLow : Nat
  /-- `T_REQ_HIGH`: ticks the block drives the line high before releasing it. -/
  tReqHigh : Nat
deriving DecidableEq, Repr

/-- The defaults of R7: `T_REQ_LOW` = 18000, `T_REQ_HIGH` = 30. -/
def Config.defaultParams : Params := ⟨18000, 30⟩

/-- FREE VALUE: the input `rst` at edge `k`, where State lists no input for it (log 1). -/
opaque Config.freeRst : Nat → Bool

/-- FREE VALUE: the input `cmd_valid` at edge `k`, where State lists no input for it (log 1). -/
opaque Config.freeCmdValid : Nat → Bool

/-- FREE VALUE: the input `cmd_op` at edge `k`, where State lists no input for it (log 1). -/
opaque Config.freeCmdOp : Nat → BitVec 2

/-- FREE VALUE: the input `cmd_arg` at edge `k`, where State lists no input for it (log 1). -/
opaque Config.freeCmdArg : Nat → Byte

/-- FREE VALUE: the input `line_in` at edge `k`, where State lists no input for it (log 1). -/
opaque Config.freeLineIn : Nat → Level

/-- FREE VALUE: frame byte `i` after the reset edge `k` (R44, R240: "`FRAME[0..4]`: unspecified"; log 3). -/
opaque Config.freeFrameByte : Nat → Nat → Byte

/-- FREE VALUE: the field `D` of the result word of edge `k` when `TO` = 1 (R94: "not defined"; U3; log 8). -/
opaque Config.freeTimeoutD : Nat → Count

end Sys2Proof
end

