-- ==== Sys2Proof/Machine/State.lean ====
section
/-! DEFINITION. The state of PTOW as plain data: every register of `10_state.md` (R20 to R36), the configuration it
runs with, and the model's own fields (the inputs of the coming edges, the edge count, the values of the wires at the
latest edge, the stand-alone timer). -/

namespace Sys2Proof.Machine

/-- The inputs of one clock edge (R39 to R41): `rst`, the command port, the sample of the line. -/
structure EdgeInput where
  /-- `rst`, synchronous, active high (R40). -/
  rst : Bool
  /-- `cmd_valid`: the host presents a command at this edge (R41). -/
  cmdValid : Bool
  /-- `cmd_op`, command word bits 9:8 (R41). -/
  cmdOp : BitVec 2
  /-- `cmd_arg`, command word bits 7:0 (R41). -/
  cmdArg : Byte
  /-- `line_in`, the level the block samples at this edge (R39). -/
  lineIn : Level
deriving DecidableEq, Repr

/-- The eight values of `ST` (R25); the code of each is its micro-operation's (R95). -/
inductive Phase where
  | idle | reqLow | reqHigh | ackLow | ackHigh | bitLow | bitHigh | validate
deriving DecidableEq, Repr

/-- The three outcomes of a read attempt (R29). The code 3 is never produced, so the type has no value for it
(R102, U9; log 10). -/
inductive ReadOutcome where
  | ok | checksumError | timeoutError
deriving DecidableEq, Repr

/-- What the pulse timer answers (R94): a valid duration, or the timeout signal, which carries no duration (U3). -/
inductive PtRes where
  | duration (d : Count)
  | timeout
deriving DecidableEq, Repr

/-- `FRAME[0]` .. `FRAME[4]`: five registers of 8 bits (R20). -/
structure Frame where
  b0 : Byte
  b1 : Byte
  b2 : Byte
  b3 : Byte
  b4 : Byte
deriving DecidableEq, Repr

/-- The block's registers, its configuration and the model's own fields. -/
structure State where
  /-- `ST`, the micro-operation of the next edge (R25). -/
  st : Phase
  /-- `BITIDX`, 0..39 (R26; 40..63 are never reached, R102; log 10). -/
  bitidx : Fin 40
  /-- `CNT`, 15 bits (R36). -/
  cnt : Count
  /-- `FRAME[0..4]` (R20). -/
  frame : Frame
  /-- `HUM` (R22). -/
  hum : Byte
  /-- `TEMP` (R22). -/
  temp : Byte
  /-- `OUTCOME` (R29). -/
  outcome : ReadOutcome
  /-- `DONE` (R30). -/
  done : Bool
  /-- `CFG` (R32). -/
  cfg : Bool
  /-- `PIN` (R33). -/
  pin : Byte
  /-- `OE` (R34). -/
  oe : Bool
  /-- `OUT` (R35). -/
  out : Bool
  /-- The configuration the block runs with (R7); no step changes it (log 4). -/
  params : Params
  /-- The inputs of the coming edges, the next edge's first; an edge beyond the list has a free input (log 1). -/
  inputs : List EdgeInput
  /-- MODEL's own: how many edges have been taken; it indexes the free values (log 7). -/
  edge : Nat
  /-- MODEL's own: a command was accepted at the latest edge (R120; log 5). -/
  accepted : Bool
  /-- MODEL's own: the port `rdata` at the latest edge (R126; log 5). -/
  rdata : Byte
  /-- MODEL's own: the result the pulse timer produced at the latest edge, if any (R94; log 5). -/
  ptres : Option PtRes
  /-- MODEL's own: the pulse timer runs alone on this request word (D26; `none` in the block; log 6). -/
  timerAlone : Option PtWord
deriving DecidableEq, Repr

/-- The block has no fault: "there is no illegal-command, misalignment, access or arithmetic fault" (R203), and "from
every state and every input it has exactly one next state" (R15). So the type has no value. -/
inductive Fault where
deriving DecidableEq, Repr

/-- Why the model gives a step no meaning. -/
inductive Refusal where
  /-- An instruction that has no meaning yet; no arm of `exec` answers it in this model. Safe. -/
  | notModelled (mnemonic : String)
  /-- A configuration outside R7's ranges: "refused by the model (no meaning is given to it)" (R7, U10). Raised by
  `step`, REQ_LOW and REQ_HIGH. Safe. -/
  | illegalParameters
  /-- MEASURE with the timeout operand 32767: "refused by the model" (R98, U11). Raised by MEASURE and by the
  stand-alone timer's step. Safe. -/
  | timeoutOperand
deriving DecidableEq, Repr

/-- The machine right after reset (R44, R240). `FRAME` has no reset value in the spec; 0 is named in log 2. The
parameters are the defaults of R7; no input is listed. -/
def State.reset : State where
  st := .idle
  bitidx := 0
  cnt := 0#15
  frame := ⟨0#8, 0#8, 0#8, 0#8, 0#8⟩
  hum := 0#8
  temp := 0#8
  outcome := .ok
  done := false
  cfg := false
  pin := 0#8
  oe := false
  out := true
  params := Config.defaultParams
  inputs := []
  edge := 0
  accepted := false
  rdata := 0#8
  ptres := none
  timerAlone := none

end Sys2Proof.Machine
end

