-- ==== Sys2Proof/Machine/Operands.lean ====
section
/-! DEFINITION. The operand forms: the configuration's legal range, the inputs of an edge, the micro-operation a state
code stands for, and the frame buffer's bit and byte order. -/

namespace Sys2Proof.Machine

/-- R7: 18000 ≤ `T_REQ_LOW` ≤ 2^15 − 1 and 20 ≤ `T_REQ_HIGH` ≤ 40. -/
def legalParams (p : Params) : Bool :=
  decide (18000 ≤ p.tReqLow ∧ p.tReqLow ≤ 32767 ∧ 20 ≤ p.tReqHigh ∧ p.tReqHigh ≤ 40)

/-- The inputs of edge `k` where State lists none: all of them free (R13, R39; log 1). -/
def freeInput (k : Nat) : EdgeInput where
  rst := Config.freeRst k
  cmdValid := Config.freeCmdValid k
  cmdOp := Config.freeCmdOp k
  cmdArg := Config.freeCmdArg k
  lineIn := Config.freeLineIn k

/-- The inputs of the next edge: the head of the list, or free. -/
def State.input (s : State) : EdgeInput :=
  match s.inputs with
  | i :: _ => i
  | [] => freeInput s.edge

/-- The inputs of the edge `k` edges after the next one. -/
def State.inputAt (s : State) (k : Nat) : EdgeInput :=
  match s.inputs.drop k with
  | i :: _ => i
  | [] => freeInput (s.edge + k)

/-- `LineSample()`: the value `line_in` that the block samples at this edge; no side effect (R11, R61, R69). -/
def State.lineSample (s : State) : Level := s.input.lineIn

/-- The micro-operation that a value of `ST` selects (R25, R95, R160). -/
def Phase.instr : Phase → Instr
  | .idle => .idle
  | .reqLow => .reqLow
  | .reqHigh => .reqHigh
  | .ackLow => .ackLow
  | .ackHigh => .ackHigh
  | .bitLow => .bitLow
  | .bitHigh => .bitHigh
  | .validate => .validate

/-- The value of `ST` that selects an instruction, for the eight micro-operations (R95). -/
def phaseOf : Instr → Option Phase
  | .idle => some .idle
  | .reqLow => some .reqLow
  | .reqHigh => some .reqHigh
  | .ackLow => some .ackLow
  | .ackHigh => some .ackHigh
  | .bitLow => some .bitLow
  | .bitHigh => some .bitHigh
  | .validate => some .validate
  | .cfgPin _ => none
  | .read => none
  | .getHum => none
  | .getTemp => none
  | .measure _ _ => none

/-- The 3-bit code of `ST` (R25). -/
def Phase.code : Phase → StCode
  | .idle => 0#3
  | .reqLow => 1#3
  | .reqHigh => 2#3
  | .ackLow => 3#3
  | .ackHigh => 4#3
  | .bitLow => 5#3
  | .bitHigh => 6#3
  | .validate => 7#3

/-- The constant request word of a measuring state (R95): `none` in the four states that do not measure. -/
def Phase.ptreq : Phase → Option PtWord
  | .idle => none
  | .reqLow => none
  | .reqHigh => none
  | .ackLow => some 0x0055#16
  | .ackHigh => some 0x8055#16
  | .bitLow => some 0x0038#16
  | .bitHigh => some 0x804B#16
  | .validate => none

/-- The register `BITIDX` as its 6 bits (R26). -/
def State.bitidxBits (s : State) : BitVec 6 := BitVec.ofNat 6 s.bitidx.val

/-- The byte that data bit `n` goes to: `n div 8`, which is `n[5:3]` (R64, R183). -/
def byteIndex (n : Fin 40) : Fin 5 := ⟨n.val / 8, by omega⟩

/-- The bit position that data bit `n` goes to: `7 − (n mod 8)` (R64, R183). -/
def bitPos (n : Fin 40) : Nat := 7 - n.val % 8

/-- `FRAME[i]` (R11). -/
def Frame.byte (f : Frame) (i : Fin 5) : Byte :=
  match i with
  | 0 => f.b0
  | 1 => f.b1
  | 2 => f.b2
  | 3 => f.b3
  | 4 => f.b4

/-- The frame with byte `i` replaced. -/
def Frame.setByte (f : Frame) (i : Fin 5) (v : Byte) : Frame :=
  match i with
  | 0 => { f with b0 := v }
  | 1 => { f with b1 := v }
  | 2 => { f with b2 := v }
  | 3 => { f with b3 := v }
  | 4 => { f with b4 := v }

/-- The byte with bit `p` replaced; the other seven bits keep their value (R11). -/
def setBit (v : Byte) (p : Nat) (b : Bool) : Byte :=
  if b then v ||| (1#8 <<< p) else v &&& ~~~(1#8 <<< p)

/-- Data bit `n` of the frame, at `FRAME[n div 8][7 − (n mod 8)]` (R64). -/
def Frame.bit (f : Frame) (n : Fin 40) : Bool := (f.byte (byteIndex n)).getLsbD (bitPos n)

/-- `FRAME[n div 8][7 − (n mod 8)] <- b`: the frame buffer's only store (R63, R64, R176). -/
def Frame.writeBit (f : Frame) (n : Fin 40) (b : Bool) : Frame :=
  f.setByte (byteIndex n) (setBit (f.byte (byteIndex n)) (bitPos n) b)

end Sys2Proof.Machine
end

