-- ==== Sys2Proof/Machine/Flags.lean ====
section
/-! DEFINITION. The flags and the arithmetic they rest on: `OUTCOME`'s code, `BUSY`, the acceptance of a command, the
bit decision, the checksum. -/

namespace Sys2Proof.Machine

/-- The 2-bit code of `OUTCOME`: 0 `Ok`, 1 `ChecksumError`, 2 `TimeoutError` (R29, R200). -/
def ReadOutcome.code : ReadOutcome → BitVec 2
  | .ok => 0#2
  | .checksumError => 1#2
  | .timeoutError => 2#2

/-- `BUSY = (ST ≠ IDLE)`: no register (R31). -/
def State.busy (s : State) : Bool := decide (s.st ≠ .idle)

/-- `accept(cmd_op)`: a function of the pre-edge `ST`, the pre-edge `CFG` and the presented operation only (R121). -/
def accept (op : BitVec 2) (s : State) : Bool :=
  if op = 0b00#2 then decide (s.st = .idle)
  else if op = 0b01#2 then decide (s.st = .idle) && s.cfg
  else true

/-- The bit decision: 1 if the high pulse's duration exceeds 40 ticks, else 0; unsigned and strict (R175, R182). -/
def decideBit (d : Count) : Bool := decide (Config.bitThresh < d.toNat)

/-- `sum`: the low 8 bits of the sum of bytes 0 to 3; each addition modulo 256 (R179, R181). -/
def Frame.checksum (f : Frame) : Byte := f.b0 + f.b1 + f.b2 + f.b3

/-- The result word `PTRES = {TO, D}` at edge `k` (R94). With `TO` = 1 the field `D` is not defined: a free value
(U3; log 8). -/
def PtRes.word (k : Nat) : PtRes → PtWord
  | .duration d => BitVec.ofBool false ++ d
  | .timeout => BitVec.ofBool true ++ Config.freeTimeoutD k

end Sys2Proof.Machine
end

