-- ==== Sys2Proof/Machine/Ops.lean ====
section
/-! DEFINITION. The shared operations: the line's drive, the command port's answer, one edge of a measurement, the
abort `raise Timeout` (what the block has for taking an exception), reset, and what surrounds every edge. There is no
return from an exception: "There is no handler and no return operation" (R214). -/

namespace Sys2Proof.Machine

/-- Goes on from a next state; a fault or a refusal ends the step. -/
def andThen (o : Host.Outcome State Fault Refusal) (k : State → Host.Outcome State Fault Refusal) :
    Host.Outcome State Fault Refusal :=
  match o with
  | .next s => k s
  | .fault r => .fault r
  | .refused r => .refused r

/-- `LineDrive(oe, out)` (R11, R62), as READ uses it: both registers are written (R123). -/
def State.lineDrive (s : State) (oe out : Bool) : State := { s with oe := oe, out := out }

/-- What the command port shows at this edge: whether the command was accepted, and `rdata` (R120, R126). -/
def State.respond (s : State) (accepted : Bool) (rdata : Byte) : State :=
  { s with accepted := accepted, rdata := rdata }

/-- A command that is not accepted: no register changes, no flag is set, nothing is raised (R121). -/
def State.notAccepted (s : State) : State := s.respond false 0#8

/-- `raise Timeout`: the abort of R211. Nothing else is written; the reading keeps its values (R213). -/
def State.raiseTimeout (s : State) : State :=
  { s with outcome := .timeoutError, done := true, st := .idle, cnt := 0#15 }

/-- One edge of a running measurement (R142, R143). A differing sample ends it with the duration `CNT`; a matching
sample is counted, or gives the timeout signal where `CNT + 1 > T`, compared without truncation. Of the registers only
`CNT` is written (R144). -/
def State.measureEdge (s : State) (level : Level) (timeout : Count) : State :=
  if s.lineSample = level then
    if timeout.toNat < s.cnt.toNat + 1 then { s with ptres := some .timeout }
    else { s with cnt := s.cnt + 1#15, ptres := none }
  else { s with ptres := some (.duration s.cnt) }

/-- The common shape of the four measuring states (R168): MEASURE on the sample of this edge; its timeout raises
Timeout at the same edge, its duration is handed to the state's completion. -/
def State.measuring (s : State) (level : Level) (timeout : Count) (complete : Count → State → State) : State :=
  match (s.measureEdge level timeout).ptres with
  | none => s.measureEdge level timeout
  | some .timeout => (s.measureEdge level timeout).raiseTimeout
  | some (.duration d) => complete d (s.measureEdge level timeout)

/-- The change of state at the end of a measurement, with the sample handover: the differing sample is the first
matching sample of the next measurement (R148). -/
def State.handover (s : State) (p : Phase) : State := { s with st := p, cnt := 1#15 }

/-- The command the host presents at this edge, if any; every command word decodes (R100, R120). -/
def State.presented (s : State) : Option Instr :=
  if s.input.cmdValid then some (decodeCmd (cmdWord s.input.cmdOp s.input.cmdArg)) else none

/-- The wires carry nothing until an operation of this edge drives them: no command accepted, `rdata` = 0 (R126), no
result of the timer. -/
def State.beginEdge (s : State) : State := { s with accepted := false, rdata := 0#8, ptres := none }

/-- The end of an edge: its inputs are used up, and a stand-alone measurement that has a result is over. -/
def State.endEdge (s : State) : State :=
  { s with
    inputs := s.inputs.tail
    edge := s.edge + 1
    timerAlone := if s.ptres = none then s.timerAlone else none }

/-- The frame after a reset edge: unspecified, so a free value (R240, R245; log 3). -/
def freeFrame (k : Nat) : Frame :=
  ⟨Config.freeFrameByte k 0, Config.freeFrameByte k 1, Config.freeFrameByte k 2, Config.freeFrameByte k 3,
    Config.freeFrameByte k 4⟩

/-- Reset, at an edge with `rst` = 1, regardless of every other input (R240, R241). The configuration and the inputs
still to come are not the block's registers and stay. -/
def State.resetEdge (s : State) : State :=
  { State.reset with
    frame := freeFrame s.edge
    params := s.params
    inputs := s.inputs.tail
    edge := s.edge + 1 }

/-- The input of the next edge with `rst` = 0 and the given command port; the level of the line stays as listed, and
is low where State lists no input (log 11). -/
def State.placeInput (s : State) (valid : Bool) (op : BitVec 2) (arg : Byte) : State :=
  { s with inputs :=
      ⟨false, valid, op, arg, match s.inputs with | i :: _ => i.lineIn | [] => false⟩ :: s.inputs.tail }

/-- A command presented at the next edge, with what its acceptance takes: `ST` = IDLE, and `CFG` = 1 for READ
(R121; log 11). -/
def State.placeCommand (s : State) (w : CmdWord) : State :=
  { s.placeInput true (cmdOpField w) (cmdArgField w) with
    st := .idle
    cfg := s.cfg || decide (decodeCmd w = .read)
    timerAlone := none }

/-- The micro-operation of the next edge, with no command presented (R95; log 11). -/
def State.placeMicroOp (s : State) (w : StCode) : State :=
  { s.placeInput false 0#2 0#8 with
    st := (phaseOf (decodeSeq w)).getD .idle
    timerAlone := none }

/-- The pulse timer alone, started on a request word with `CNT` = 0 (R141, D26; log 6). -/
def State.placeRequest (s : State) (w : PtWord) : State :=
  { s.placeInput false 0#2 0#8 with
    cnt := 0#15
    timerAlone := some w }

end Sys2Proof.Machine
end

