-- ==== Sys2Proof/Machine/HostCommands.lean ====
section
/-! DEFINITION. The four host commands (`40_host_commands.md`), each at the edge at which it is presented. -/

namespace Sys2Proof.Machine

/-- CFGPIN n (R122): accepted when `ST` = IDLE; `PIN <- arg`, `CFG <- 1`. -/
def execCfgPin (n : Byte) (s : State) : Host.Outcome State Fault Refusal :=
  if accept 0b00#2 s then .next { s.respond true 0#8 with pin := n, cfg := true }
  else .next s.notAccepted

/-- READ (R123): accepted when `ST` = IDLE and `CFG` = 1; starts an attempt. -/
def execRead (s : State) : Host.Outcome State Fault Refusal :=
  if accept 0b01#2 s then
    .next { (s.respond true 0#8).lineDrive true false with
      st := .reqLow
      cnt := 0#15
      bitidx := 0
      done := false }
  else .next s.notAccepted

/-- GETHUM (R124): accepted in every state; `rdata = HUM`, the pre-edge value; no register is written. -/
def execGetHum (s : State) : Host.Outcome State Fault Refusal :=
  if accept 0b10#2 s then .next (s.respond true s.hum) else .next s.notAccepted

/-- GETTEMP (R125): accepted in every state; `rdata = TEMP`, the pre-edge value; no register is written. -/
def execGetTemp (s : State) : Host.Outcome State Fault Refusal :=
  if accept 0b11#2 s then .next (s.respond true s.temp) else .next s.notAccepted

end Sys2Proof.Machine
end

