-- ==== Sys2Proof/Machine/PulseTimer.lean ====
section
/-! DEFINITION. The pulse timer's one operation, MEASURE (`41_pulse_timer.md`), one clock edge of it. -/

namespace Sys2Proof.Machine

/-- MEASURE(T, L), one edge (R140 to R143). It raises nothing: its timeout is a result value (R145). The operand
32767 is refused by the model (R98, U11). -/
def execMeasure (level : Level) (timeout : Count) (s : State) : Host.Outcome State Fault Refusal :=
  if timeoutLegal timeout then .next (s.measureEdge level timeout) else .refused .timeoutOperand

end Sys2Proof.Machine
end

