-- ==== Sys2Proof/Machine/Sequencer.lean ====
section
/-! DEFINITION. The eight micro-operations of the sequencer (`42_protocol_driver.md`), each one clock edge in its
state. `step` runs the one that the pre-edge `ST` selects (R160). -/

namespace Sys2Proof.Machine

/-- IDLE (R162): the sequencer writes nothing; the sample is ignored. -/
def execIdle (s : State) : Host.Outcome State Fault Refusal := .next s

/-- REQ_LOW (R165): driven low for `T_REQ_LOW` edges, then driven high: `LineDrive(1, 1)` with `OE` already 1, so only
`OUT` is written (R165: "Registers written: `CNT`, and at the last edge `OUT`, `ST`"; R38). -/
def execReqLow (s : State) : Host.Outcome State Fault Refusal :=
  if legalParams s.params then
    if s.cnt.toNat + 1 = s.params.tReqLow then
      .next { s with out := true, st := .reqHigh, cnt := 0#15 }
    else .next { s with cnt := s.cnt + 1#15 }
  else .refused .illegalParameters

/-- REQ_HIGH (R167): driven high for `T_REQ_HIGH` edges, then released: `LineDrive(0, 1)` with `OUT` already 1, so only
`OE` is written (R167: "Registers written: `CNT`, and at the last edge `OE`, `ST`"; R38). -/
def execReqHigh (s : State) : Host.Outcome State Fault Refusal :=
  if legalParams s.params then
    if s.cnt.toNat + 1 = s.params.tReqHigh then
      .next { s with oe := false, st := .ackLow, cnt := 0#15 }
    else .next { s with cnt := s.cnt + 1#15 }
  else .refused .illegalParameters

/-- ACK_LOW (R169): MEASURE(85, 0); the duration is discarded. -/
def execAckLow (s : State) : Host.Outcome State Fault Refusal :=
  .next (s.measuring false Config.tAckLow fun _ t => t.handover .ackHigh)

/-- ACK_HIGH (R171): MEASURE(85, 1); the duration is discarded. -/
def execAckHigh (s : State) : Host.Outcome State Fault Refusal :=
  .next (s.measuring true Config.tAckHigh fun _ t => t.handover .bitLow)

/-- BIT_LOW (R173): MEASURE(56, 0); the duration is discarded. -/
def execBitLow (s : State) : Host.Outcome State Fault Refusal :=
  .next (s.measuring false Config.tBitLow fun _ t => t.handover .bitHigh)

/-- The completion of BIT_HIGH (R176): one frame bit, then the next bit or VALIDATE. -/
def completeBit (d : Count) (s : State) : State :=
  if h : s.bitidx.val = 39 then
    { s with frame := s.frame.writeBit s.bitidx (decideBit d), st := .validate, cnt := 0#15 }
  else
    { s with
      frame := s.frame.writeBit s.bitidx (decideBit d)
      bitidx := ⟨s.bitidx.val + 1, by omega⟩
      st := .bitLow
      cnt := 1#15 }

/-- BIT_HIGH (R176): MEASURE(75, 1); the duration decides the bit. -/
def execBitHigh (s : State) : Host.Outcome State Fault Refusal :=
  .next (s.measuring true Config.tBitHigh completeBit)

/-- VALIDATE (R179): the checksum over the four first bytes against the fifth; on a match the reading is updated. -/
def execValidate (s : State) : Host.Outcome State Fault Refusal :=
  if s.frame.b4 = s.frame.checksum then
    .next { s with hum := s.frame.b0, temp := s.frame.b2, outcome := .ok, done := true, st := .idle }
  else .next { s with outcome := .checksumError, done := true, st := .idle }

end Sys2Proof.Machine
end

