-- ==== Sys2Proof/Machine/Dispatch.lean ====
section
/-! DEFINITION. One arm per instruction. -/

namespace Sys2Proof.Machine

/-- The effect of one operation at one clock edge with `rst` = 0. -/
def exec (i : Instr) (s : State) : Host.Outcome State Fault Refusal :=
  match i with
  | .cfgPin n => Sys2Proof.Machine.execCfgPin n s
  | .read => Sys2Proof.Machine.execRead s
  | .getHum => Sys2Proof.Machine.execGetHum s
  | .getTemp => Sys2Proof.Machine.execGetTemp s
  | .measure level timeout => Sys2Proof.Machine.execMeasure level timeout s
  | .idle => Sys2Proof.Machine.execIdle s
  | .reqLow => Sys2Proof.Machine.execReqLow s
  | .reqHigh => Sys2Proof.Machine.execReqHigh s
  | .ackLow => Sys2Proof.Machine.execAckLow s
  | .ackHigh => Sys2Proof.Machine.execAckHigh s
  | .bitLow => Sys2Proof.Machine.execBitLow s
  | .bitHigh => Sys2Proof.Machine.execBitHigh s
  | .validate => Sys2Proof.Machine.execValidate s

end Sys2Proof.Machine
end

