-- ==== Sys2Proof/Machine/Step.lean ====
section
/-! DEFINITION. One step is one rising edge of `clk` (R160 of `42_protocol_driver.md`). -/

namespace Sys2Proof.Machine

/-- The command of this edge, if one is presented (R120). -/
def runCommand (c : Option Instr) (s : State) : Host.Outcome State Fault Refusal :=
  match c with
  | none => .next s
  | some i => exec i s

/-- An edge of the block with `rst` = 0: the presented command and the micro-operation of the pre-edge `ST`, both on
pre-edge values (R160). The command is run first; where it writes a register the micro-operation is IDLE, which reads
and writes none, so the order cannot be seen (DEDUCED from R73; safe; log 9). -/
def blockEdge (s : State) : Host.Outcome State Fault Refusal :=
  andThen (runCommand s.presented s.beginEdge) fun t =>
    andThen (exec s.st.instr t) fun u => .next u.endEdge

/-- An edge of the pulse timer run alone on a request word (D26; log 6). -/
def timerEdge (w : PtWord) (s : State) : Host.Outcome State Fault Refusal :=
  match decodePt w with
  | .ok i => andThen (exec i s.beginEdge) fun t => .next t.endEdge
  | .error .timeoutOperand => .refused .timeoutOperand

/-- One clock edge. A configuration outside R7 has no meaning (R7, U10); `rst` wins over everything else (R207). -/
def step (s : State) : Host.Outcome State Fault Refusal :=
  if legalParams s.params then
    if s.input.rst then .next s.resetEdge
    else
      match s.timerAlone with
      | none => blockEdge s
      | some w => timerEdge w s
  else .refused .illegalParameters

/-- `s` with the table word `w` placed where the next step takes its operation from: a command on the command port
(with what its acceptance takes), a state code in `ST`, or a request word for the timer alone (log 11). -/
def State.withFetchWord (s : State) (nbits w : Nat) : State :=
  match tablePort nbits w with
  | some (.cmd c) => s.placeCommand c
  | some (.pt p) => s.placeRequest p
  | some (.seq q) => s.placeMicroOp q
  | none => s

end Sys2Proof.Machine
end

