-- ==== Sys2Proof/Machine/Ports.lean ====
section
/-! DEFINITION. The output ports as functions of the registers and of the presented command (R39, R41, R42). -/

namespace Sys2Proof.Machine

/-- Port `line_out` (R39). -/
def State.lineOut (s : State) : Level := s.out

/-- Port `line_oe`: 1 = the pad drives `line_out` onto the line, 0 = high impedance (R39). -/
def State.lineOe (s : State) : Bool := s.oe

/-- What the block drives onto the wire: nothing while `OE` = 0 (R34, R62). -/
def State.driven (s : State) : Option Level := if s.oe then some s.out else none

/-- Port `cmd_ready`: the presented operation would be accepted at this edge (R41, R121). -/
def State.cmdReady (s : State) : Bool := accept s.input.cmdOp s

/-- The command is accepted at this edge: presented, ready, and `rst` = 0 (R120). -/
def State.accepting (s : State) : Bool := !s.input.rst && s.input.cmdValid && s.cmdReady

/-- Port `rdata`: combinational; `HUM` where GETHUM is accepted, `TEMP` where GETTEMP is, 0 at every other edge
(R126). -/
def State.rdataPort (s : State) : Byte :=
  if s.accepting && decide (s.input.cmdOp = 0b10#2) then s.hum
  else if s.accepting && decide (s.input.cmdOp = 0b11#2) then s.temp
  else 0#8

/-- Port `busy` (R31, R42). -/
def State.busyPort (s : State) : Bool := s.busy

/-- Port `done` (R42). -/
def State.donePort (s : State) : Bool := s.done

/-- Port `outcome` (R42). -/
def State.outcomePort (s : State) : BitVec 2 := s.outcome.code

/-- Port `humidity` (R42). -/
def State.humidityPort (s : State) : Byte := s.hum

/-- Port `temperature` (R42). -/
def State.temperaturePort (s : State) : Byte := s.temp

/-- Port `cfg` (R42). -/
def State.cfgPort (s : State) : Bool := s.cfg

/-- Port `pin_sel` (R33, R42). -/
def State.pinSelPort (s : State) : Byte := s.pin

/-- The result word `PTRES` of the latest edge, if the timer produced one (R94). -/
def State.ptresWord (s : State) : Option PtWord := s.ptres.map (PtRes.word s.edge)

end Sys2Proof.Machine
end

