-- ==== Sys2Proof/Safety.lean ====
section
/-! DEFINITION. The terms the statements use: the invariant of R47 and the ranges of R37 (`10_state.md`), a run of
edges, premises about its inputs, and the waveforms of R185 (`42_protocol_driver.md`). -/

namespace Sys2Proof.Machine

/-- `k` clock edges from `s`: the host's run of the machine (`runEdges_eq_run` in Laws/Step.lean). -/
def runEdges : Nat → State → Host.Outcome State Fault Refusal
  | 0, s => .next s
  | k + 1, s => andThen (step s) (runEdges k)

/-- A run is safe if it answers a next state: nothing is refused on the way, and the block has no fault. -/
def SafeFor (k : Nat) (s : State) : Prop := ∃ t, runEdges k s = .next t

/-- The range of `CNT` just before an edge in each state (R37). -/
def CntInRange (p : Params) : Phase → Nat → Prop
  | .idle, c => c = 0
  | .reqLow, c => c ≤ p.tReqLow - 1
  | .reqHigh, c => c ≤ p.tReqHigh - 1
  | .ackLow, c => c ≤ 85
  | .ackHigh, c => 1 ≤ c ∧ c ≤ 85
  | .bitLow, c => 1 ≤ c ∧ c ≤ 56
  | .bitHigh, c => 1 ≤ c ∧ c ≤ 75
  | .validate, c => c = 0

/-- The invariant of R47, in a legal configuration and with the timer inside the block (not run alone). -/
structure BlockInv (s : State) : Prop where
  /-- The configuration is one of R7's. -/
  params : legalParams s.params = true
  /-- The state is one of the block, not of the timer alone (log 6). -/
  inBlock : s.timerAlone = none
  /-- `OE = 1` if and only if `ST` is `REQ_LOW` or `REQ_HIGH`. -/
  oe : s.oe = true ↔ s.st = .reqLow ∨ s.st = .reqHigh
  /-- `OUT = 0` if and only if `ST = REQ_LOW`. -/
  out : s.out = false ↔ s.st = .reqLow
  /-- `BITIDX ≤ 39`. -/
  bitidx : s.bitidxBits.toNat ≤ 39
  /-- `CNT` within R37's range. -/
  cnt : CntInRange s.params s.st s.cnt.toNat
  /-- `DONE = 1` implies `ST = IDLE`. -/
  done : s.done = true → s.st = .idle
  /-- `ST ≠ IDLE` implies `CFG = 1`. -/
  cfg : s.st ≠ .idle → s.cfg = true
  /-- `OUTCOME ≠ 3`. -/
  outcome : s.outcome.code ≠ 3#2

/-- The place of `BITIDX` in the sequence (R26, R171: "`BITIDX` is already 0 since the READ"; R176): 0 until the bit
loop, 39 in VALIDATE. -/
def BitidxInPlace (s : State) : Prop :=
  (s.st = .reqLow ∨ s.st = .reqHigh ∨ s.st = .ackLow ∨ s.st = .ackHigh → s.bitidx = 0) ∧
    (s.st = .validate → s.bitidx.val = 39)

/-- Just after the edge that accepted a READ (R123), in a state of the block. -/
structure AttemptStart (s : State) : Prop where
  inv : BlockInv s
  st : s.st = .reqLow
  cnt : s.cnt = 0#15
  bitidx : s.bitidx = 0

/-- `E = T_REQ_LOW + T_REQ_HIGH`: the edge, counted from the one that accepts the READ, that releases the line. -/
def releaseEdge (s : State) : Nat := s.params.tReqLow + s.params.tReqHigh

/-- `rst` = 0 at each of the next `k` edges, whatever else the inputs are. -/
def NoReset (k : Nat) (s : State) : Prop := ∀ j < k, (s.inputAt j).rst = false

/-- The samples of the edges from the `k`-th coming one on are `ls`; the command port is not constrained. -/
def SamplesFrom (s : State) (k : Nat) (ls : List Level) : Prop :=
  ∀ (j : Nat) (h : j < ls.length), (s.inputAt (k + j)).lineIn = ls[j]

/-- The bound of run `j` of the receive phase, in the order n0, g, l_0, h_0, ..., l_39, h_39: 85, 85, then 56 and 75
alternately (R185). -/
def runBound (j : Nat) : Nat := if j < 2 then 85 else if j % 2 = 0 then 56 else 75

/-- The level of run `j`: low, high, low, high, ... (R185). -/
def runLevel (j : Nat) : Level := decide (j % 2 = 1)

/-- The samples of runs `j`, `j + 1`, ... of the given lengths. -/
def waveform : Nat → List Nat → List Level
  | _, [] => []
  | j, d :: ds => List.replicate d (runLevel j) ++ waveform (j + 1) ds

/-- Runs `j`, `j + 1`, ... are within their bounds and not empty; only run 0 may have no sample (R185, R149). -/
def RunsWithin : Nat → List Nat → Prop
  | _, [] => True
  | j, d :: ds => (j = 0 ∨ 1 ≤ d) ∧ d ≤ runBound j ∧ RunsWithin (j + 1) ds

/-- Two states that differ at most in the command ports of the inputs still to come. -/
structure SameButCommands (s t : State) : Prop where
  same : { s with inputs := [] } = { t with inputs := [] }
  length : s.inputs.length = t.inputs.length
  rst : s.input.rst = t.input.rst
  lineIn : s.input.lineIn = t.input.lineIn

/-- How many frame bits the running attempt has written: none that matter in IDLE and before the bit loop, `BITIDX` of
them in the bit loop, all 40 in VALIDATE (R20, R176). -/
def bitsWritten (s : State) : Nat :=
  match s.st with
  | .bitLow => s.bitidx.val
  | .bitHigh => s.bitidx.val
  | .validate => 40
  | _ => 0

/-- Two states that are equal but for frame bits that the running attempt has not written (U1 of
`93_implementation_defined.md`). -/
structure SameButStaleFrame (s t : State) : Prop where
  same : { s with frame := t.frame } = t
  written : ∀ n : Fin 40, n.val < bitsWritten s → s.frame.bit n = t.frame.bit n

/-- The value of `ST` after an edge of the block, as the table of R27 has it; where no row applies `ST` keeps its
value. The rows' conditions: a READ accepted, a count reached, a differing sample, a timeout, reset. -/
def phaseAfter (s : State) : Phase :=
  if s.input.rst then .idle
  else
    match s.st with
    | .idle => if s.accepting && decide (s.input.cmdOp = 0b01#2) then .reqLow else .idle
    | .reqLow => if s.cnt.toNat + 1 = s.params.tReqLow then .reqHigh else .reqLow
    | .reqHigh => if s.cnt.toNat + 1 = s.params.tReqHigh then .ackLow else .reqHigh
    | .ackLow => if s.lineSample = true then .ackHigh else if 85 < s.cnt.toNat + 1 then .idle else .ackLow
    | .ackHigh => if s.lineSample = false then .bitLow else if 85 < s.cnt.toNat + 1 then .idle else .ackHigh
    | .bitLow => if s.lineSample = true then .bitHigh else if 56 < s.cnt.toNat + 1 then .idle else .bitLow
    | .bitHigh =>
      if s.lineSample = false then (if s.bitidx.val < 39 then .bitLow else .validate)
      else if 75 < s.cnt.toNat + 1 then .idle else .bitHigh
    | .validate => .idle

/-- The edge rule of a measuring state whose completion is a handover to `next` (R168): `level` and `bound` are the
state's constants, which are its constant request word (R95). It answers a next state for every state and every
sample. -/
def MeasuringEdge (i : Instr) (level : Level) (bound : Nat) (next : Phase) : Prop :=
  (∃ p : Phase, p.instr = i ∧ p.ptreq = some (ptWord level (BitVec.ofNat 15 bound))) ∧ ∀ s : State,
    (s.lineSample ≠ level →
      exec i s = .next { s with st := next, cnt := 1#15, ptres := some (.duration s.cnt) }) ∧
    (s.lineSample = level → s.cnt.toNat + 1 ≤ bound →
      exec i s = .next { s with cnt := s.cnt + 1#15, ptres := none }) ∧
    (s.lineSample = level → bound < s.cnt.toNat + 1 →
      exec i s = .next
        { s with st := .idle, cnt := 0#15, outcome := .timeoutError, done := true, ptres := some .timeout })

/-- One field of a state whose writes by two operations of one edge land together: at most one of them writes it. -/
def WritesTogether {α : Type} (before command microOp after : α) : Prop :=
  (command = before ∧ after = microOp) ∨ (microOp = before ∧ after = command)

end Sys2Proof.Machine
end

