-- ==== Sys2Proof/Certificates/Slice0/Obligations.lean ====
section
/-! DEFINITION. The statements about PTOW. Each says which rule of spec/ it formalises. Where a statement speaks of the
model's own fields (`accepted`, `rdata`, `ptres`, `inputs`, `edge`, `timerAlone`), logs 1, 5, 6, 7 say what they are. -/

open Sys2Proof Sys2Proof.Machine

/-! ### Reset -/

/-- R44, R240: after an edge with `rst` = 1, whatever the other inputs are, every register holds its reset value; of
`FRAME` nothing is said. Nothing is accepted, the line is not driven, and READ would not be accepted. -/
def Obligations.ResetEdgeSetsEveryRegister : Prop :=
  ∀ s : State, legalParams s.params = true → s.input.rst = true →
    ∃ t, step s = .next t ∧ t.st.code = 0#3 ∧ t.st = .idle ∧ t.bitidxBits = 0#6 ∧ t.cnt = 0#15 ∧ t.hum = 0#8 ∧
      t.temp = 0#8 ∧ t.outcome.code = 0#2 ∧ t.done = false ∧ t.cfg = false ∧ t.pin = 0#8 ∧ t.oe = false ∧
      t.out = true ∧ t.accepted = false ∧ t.rdata = 0#8 ∧ t.busyPort = false ∧ t.driven = none ∧
      accept 0b01#2 t = false

/-- R44: `State.reset` has the values of R44. `FRAME` is left out: its value there is the model's choice (log 2). -/
def Obligations.ResetStateHoldsTheSpecValues : Prop :=
  State.reset.st = .idle ∧ State.reset.st.code = 0#3 ∧ State.reset.bitidxBits = 0#6 ∧ State.reset.cnt = 0#15 ∧
    State.reset.hum = 0#8 ∧ State.reset.temp = 0#8 ∧ State.reset.outcome.code = 0#2 ∧ State.reset.done = false ∧
    State.reset.cfg = false ∧ State.reset.pin = 0#8 ∧ State.reset.oe = false ∧ State.reset.out = true ∧
    State.reset.busyPort = false ∧ State.reset.driven = none ∧ accept 0b01#2 State.reset = false ∧
    State.reset.params = ⟨18000, 30⟩

/-! ### Encodings -/

/-- Decode and encode agree: for every well-formed operation, at every value of its operands (R91 to R95, R97, R98). -/
def Obligations.DecodeOfEncodeIsTheInstruction : Prop :=
  ∀ i : Instr, i.wf = true → decode (encode i) = .ok i

/-- R90, R91, R92, R101: every 10-bit word is a command; `op` alone selects it; CFGPIN carries `arg`; words of READ,
GETHUM or GETTEMP that differ in `arg` only are the same command, and the encoder writes `arg` = 0 for them. -/
def Obligations.EveryCommandWordDecodes : Prop :=
  ∀ w : CmdWord,
    (w.toNat / 256 = 0 → decode (.cmd w) = .ok (.cfgPin (BitVec.ofNat 8 w.toNat)) ∧
      encode (.cfgPin (BitVec.ofNat 8 w.toNat)) = .cmd w) ∧
    (w.toNat / 256 = 1 → decode (.cmd w) = .ok .read) ∧ encode .read = .cmd 0x100#10 ∧
    (w.toNat / 256 = 2 → decode (.cmd w) = .ok .getHum) ∧ encode .getHum = .cmd 0x200#10 ∧
    (w.toNat / 256 = 3 → decode (.cmd w) = .ok .getTemp) ∧ encode .getTemp = .cmd 0x300#10

/-- R93, R98: bit 15 of a request word is `L`, bits 14:0 are `T`; every word with `T` ≤ 32766 is a MEASURE request that
encodes back to the word, and `T` = 32767 is refused by the decoder and by MEASURE. `T` = 0 is legal: started with `CNT`
= 0 the first sample decides. -/
def Obligations.RequestWordFields : Prop :=
  (∀ w : PtWord,
    (w.toNat % 32768 ≤ 32766 →
      ∃ l t, l = decide (32768 ≤ w.toNat) ∧ t.toNat = w.toNat % 32768 ∧
        decode (.pt w) = .ok (.measure l t) ∧ encode (.measure l t) = .pt w) ∧
    (w.toNat % 32768 = 32767 →
      decode (.pt w) = .error .timeoutOperand ∧
        ∀ s : State, exec (.measure (ptLevelField w) (ptTimeoutField w)) s = .refused .timeoutOperand)) ∧
  (∀ (level : Level) (s : State), s.cnt = 0#15 →
    ∃ t, exec (.measure level 0#15) s = .next t ∧
      t.ptres = if s.lineSample = level then some .timeout else some (.duration 0#15))

/-- R94: bit 15 of the timer's result word is `TO`; with `TO` = 0 bits 14:0 are the duration. With `TO` = 1 they are a free
value (log 8), of which nothing is said. A measurement that is not past its bound answers a duration of 0 .. `T`. -/
def Obligations.ResultWordFields : Prop :=
  (∀ (k : Nat) (d : Count), ((PtRes.duration d).word k).toNat = d.toNat) ∧
    (∀ k : Nat, 32768 ≤ ((PtRes.timeout).word k).toNat) ∧
    (∀ (level : Level) (timeout : Count) (s t : State), s.cnt.toNat ≤ timeout.toNat →
      exec (.measure level timeout) s = .next t → t.cnt.toNat ≤ timeout.toNat ∧
        ∀ d, t.ptres = some (.duration d) → d.toNat ≤ timeout.toNat)

/-- The tables of `10_state.md` section 2 and `30_encoding.md` section 1: all eight values of `ST` are used; each selects
its micro-operation, whose encoding is that value; four of them carry a constant request word. -/
def Obligations.EveryStateCodeSelectsAMicroOperation : Prop :=
  (∀ w : StCode, ∃ p : Phase, p.code = w ∧ decode (.seq w) = .ok p.instr ∧ encode p.instr = .seq w ∧
    phaseOf p.instr = some p) ∧
  [0#3, 1#3, 2#3, 3#3, 4#3, 5#3, 6#3, 7#3].map decodeSeq =
    [.idle, .reqLow, .reqHigh, .ackLow, .ackHigh, .bitLow, .bitHigh, .validate] ∧
  [Phase.idle, .reqLow, .reqHigh, .ackLow, .ackHigh, .bitLow, .bitHigh, .validate].map Phase.ptreq =
    [none, none, none, some 0x0055#16, some 0x8055#16, some 0x0038#16, some 0x804B#16, none]

/-- Words written out from R91, R93 and R95 decode to what they stand for. -/
def Obligations.SpecWordsDecode : Prop :=
  decode (.cmd 0b0000000100#10) = .ok (.cfgPin 4#8) ∧ decode (.cmd 0b0100000000#10) = .ok .read ∧
    decode (.cmd 0b0110100101#10) = .ok .read ∧ decode (.cmd 0b1000000000#10) = .ok .getHum ∧
    decode (.cmd 0b1100000000#10) = .ok .getTemp ∧ decode (.pt 0x0055#16) = .ok (.measure false 85#15) ∧
    decode (.pt 0x804B#16) = .ok (.measure true 75#15) ∧ decode (.pt 0x7FFF#16) = .error .timeoutOperand ∧
    decode (.seq 0b011#3) = .ok .ackLow ∧ decode (.seq 0b111#3) = .ok .validate

/-! ### A step runs the decoded operations -/

/-- A step is `exec` of what was decoded. At an edge with `rst` = 0 the code in `ST` selects a micro-operation, between the
model's `beginEdge` and `endEdge`. Where a command is presented the model runs it first and the micro-operation on its
result: that order is the model's choice (log 9, DEDUCED). R160 has both read pre-edge values, and that the two agree is
the statement `CommandAndMicroOperationReadPreEdgeValues`. The timer run alone is the model's too (log 6). -/
def Obligations.StepRunsTheDecodedOperations : Prop :=
  ∀ s : State, legalParams s.params = true → s.input.rst = false →
    (s.timerAlone = none → ∀ i, decode (.seq s.st.code) = .ok i →
      (s.input.cmdValid = false → step s = andThen (exec i s.beginEdge) fun u => .next u.endEdge) ∧
      (s.input.cmdValid = true → ∀ c, decode (.cmd (cmdWord s.input.cmdOp s.input.cmdArg)) = .ok c →
        step s = andThen (exec c s.beginEdge) fun t => andThen (exec i t) fun u => .next u.endEdge)) ∧
    (∀ w i, s.timerAlone = some w → decode (.pt w) = .ok i →
      step s = andThen (exec i s.beginEdge) fun u => .next u.endEdge)

/-- A table word placed by `withFetchWord` is what the next step decodes and runs, and nothing else (log 11). -/
def Obligations.PlacedTableWordRuns : Prop :=
  ∀ (s : State) (nbits w : Nat) (i : Instr), legalParams s.params = true → decodeTableWord nbits w = some i →
    step (s.withFetchWord nbits w) =
      andThen (exec i (s.withFetchWord nbits w).beginEdge) fun u => .next u.endEdge

/-- R7: the defaults, the legal ranges, and the refusal of every other configuration. -/
def Obligations.ParametersOutsideTheirRangesAreRefused : Prop :=
  Config.defaultParams = ⟨18000, 30⟩ ∧
    (∀ p : Params, legalParams p = true ↔
      18000 ≤ p.tReqLow ∧ p.tReqLow ≤ 2 ^ 15 - 1 ∧ 20 ≤ p.tReqHigh ∧ p.tReqHigh ≤ 40) ∧
    (∀ s : State, legalParams s.params = false →
      step s = .refused .illegalParameters ∧ exec .reqLow s = .refused .illegalParameters ∧
        exec .reqHigh s = .refused .illegalParameters)

/-! ### The host commands -/

/-- R122: CFGPIN n is the word `0x000 | n`; accepted in IDLE it writes `PIN` and `CFG` and nothing else; elsewhere it
is not accepted and writes no register. -/
def Obligations.CfgPinSelectsTheLine : Prop :=
  ∀ n : Byte, decode (.cmd (BitVec.ofNat 10 n.toNat)) = .ok (.cfgPin n) ∧ ∀ s : State,
    (s.st = .idle →
      exec (.cfgPin n) s = .next { s with pin := n, cfg := true, accepted := true, rdata := 0#8 }) ∧
    (s.st ≠ .idle → exec (.cfgPin n) s = .next { s with accepted := false, rdata := 0#8 })

/-- R123: READ is the word `0x100`; accepted in IDLE with `CFG` = 1 it writes `ST`, `OE`, `OUT`, `CNT`, `BITIDX`, `DONE`
and nothing else; otherwise it is not accepted and writes no register. -/
def Obligations.ReadStartsAnAttempt : Prop :=
  decode (.cmd 0x100#10) = .ok .read ∧ ∀ s : State,
    (s.st = .idle → s.cfg = true →
      exec .read s = .next
        { s with
          st := .reqLow, oe := true, out := false, cnt := 0#15, bitidx := 0, done := false
          accepted := true, rdata := 0#8 }) ∧
    (¬(s.st = .idle ∧ s.cfg = true) → exec .read s = .next { s with accepted := false, rdata := 0#8 })

/-- R124: GETHUM is the word `0x200`; it is accepted in every state, answers the pre-edge `HUM`, and writes no register. -/
def Obligations.GetHumAnswersTheHumidity : Prop :=
  decode (.cmd 0x200#10) = .ok .getHum ∧
    ∀ s : State, exec .getHum s = .next { s with accepted := true, rdata := s.hum } ∧ s.humidityPort = s.hum

/-- R125: GETTEMP is the word `0x300`; it is accepted in every state, answers the pre-edge `TEMP`, and writes no register. -/
def Obligations.GetTempAnswersTheTemperature : Prop :=
  decode (.cmd 0x300#10) = .ok .getTemp ∧
    ∀ s : State, exec .getTemp s = .next { s with accepted := true, rdata := s.temp } ∧ s.temperaturePort = s.temp

/-- R121, the table of acceptance: CFGPIN needs IDLE, READ needs IDLE and `CFG` = 1, the other two are always
accepted; and a command that is not accepted changes no register of the block. -/
def Obligations.CommandAcceptance : Prop :=
  (∀ s : State,
    (accept 0b00#2 s = true ↔ s.st = .idle) ∧ (accept 0b01#2 s = true ↔ s.st = .idle ∧ s.cfg = true) ∧
      accept 0b10#2 s = true ∧ accept 0b11#2 s = true) ∧
  (∀ (n : Byte) (s : State), s.st ≠ .idle →
    exec (.cfgPin n) s = .next { s with accepted := false, rdata := 0#8 }) ∧
  (∀ s : State, ¬(s.st = .idle ∧ s.cfg = true) →
    exec .read s = .next { s with accepted := false, rdata := 0#8 })

/-- R103, R121: "A command presented while `accept` is false has no effect of any kind": the step is the one with no
command presented at all. -/
def Obligations.HeldCommandHasNoEffect : Prop :=
  ∀ s : State, s.timerAlone = none → s.cmdReady = false →
    step s = step { s with inputs := { s.input with cmdValid := false } :: s.inputs.tail }

/-- R126, R120: after an edge of the block `rdata` was `HUM` where GETHUM is accepted, `TEMP` where GETTEMP is, and 0 at
every other edge; and `accepted` says whether a command was presented and ready with `rst` = 0. -/
def Obligations.RdataIsCombinational : Prop :=
  ∀ s t : State, s.timerAlone = none → step s = .next t →
    t.accepted = (!s.input.rst && s.input.cmdValid && accept s.input.cmdOp s) ∧
    (t.accepted = true → s.input.cmdOp = 0b10#2 → t.rdata = s.hum) ∧
    (t.accepted = true → s.input.cmdOp = 0b11#2 → t.rdata = s.temp) ∧
    (¬(t.accepted = true ∧ (s.input.cmdOp = 0b10#2 ∨ s.input.cmdOp = 0b11#2)) → t.rdata = 0#8) ∧
    t.rdata = s.rdataPort

/-! ### The pulse timer -/

/-- R142, R143, R144, R145: one edge of MEASURE. A differing sample gives the duration `CNT`; a matching sample gives the
timeout where `CNT + 1 > T`, else it is counted, without wrapping. No other register is written, nothing is raised. That
`CNT` stays as it was at the edge that ends a measurement is the model's choice (log 17, DEDUCED). -/
def Obligations.MeasureEdgeRule : Prop :=
  ∀ (level : Level) (timeout : Count) (s : State), timeout.toNat ≤ 32766 →
    (s.lineSample ≠ level →
      exec (.measure level timeout) s = .next { s with ptres := some (.duration s.cnt) }) ∧
    (s.lineSample = level → timeout.toNat < s.cnt.toNat + 1 →
      exec (.measure level timeout) s = .next { s with ptres := some .timeout }) ∧
    (s.lineSample = level → s.cnt.toNat + 1 ≤ timeout.toNat →
      exec (.measure level timeout) s = .next { s with cnt := s.cnt + 1#15, ptres := none } ∧
        (s.cnt + 1#15).toNat = s.cnt.toNat + 1)

/-- The functional form of MEASURE, the spec's own inference in `41_pulse_timer.md` section 2: started with `CNT` = 0,
`n` matching samples and then a differing one give the duration `n` at sample n, if n ≤ T; T + 1 matching samples give
the timeout at the last of them; no result comes earlier. Stated of the timer run alone (log 6). -/
def Obligations.MeasurementOfASampleStream : Prop :=
  ∀ (s : State) (level : Level) (timeout : Count), legalParams s.params = true →
    s.timerAlone = some (ptWord level timeout) → timeout.toNat ≤ 32766 → s.cnt = 0#15 →
    (∀ n ≤ timeout.toNat, NoReset (n + 1) s → SamplesFrom s 0 (List.replicate n level ++ [!level]) →
      (∃ t, runEdges (n + 1) s = .next t ∧ t.ptres = some (.duration (BitVec.ofNat 15 n)) ∧ t.timerAlone = none) ∧
        ∀ k, 1 ≤ k → k ≤ n → ∃ u, runEdges k s = .next u ∧ u.ptres = none ∧ u.cnt.toNat = k) ∧
    (NoReset (timeout.toNat + 1) s → SamplesFrom s 0 (List.replicate (timeout.toNat + 1) level) →
      (∃ t, runEdges (timeout.toNat + 1) s = .next t ∧ t.ptres = some .timeout ∧ t.timerAlone = none) ∧
        ∀ k, 1 ≤ k → k ≤ timeout.toNat → ∃ u, runEdges k s = .next u ∧ u.ptres = none)

/-- R95, R168: the constant request word of a measuring state decodes to MEASURE(T, L), and the state's edge is that
MEASURE on the sample of the edge: while it has no result the edge is the measurement's, its timeout raises Timeout at
the same edge, its duration ends the state with a handover or in VALIDATE. -/
def Obligations.MeasuringStatesRunTheirRequest : Prop :=
  ∀ (p : Phase) (w : PtWord), p.ptreq = some w →
    ∃ level timeout, decode (.pt w) = .ok (.measure level timeout) ∧
      ∀ s : State, ∃ m, exec (.measure level timeout) s = .next m ∧
        (m.ptres = none → exec p.instr s = .next m) ∧
        (m.ptres = some .timeout → exec p.instr s = .next m.raiseTimeout) ∧
        (∀ d, m.ptres = some (.duration d) → d = s.cnt ∧
          ∃ t, exec p.instr s = .next t ∧
            ((t.cnt = 1#15 ∧ (t.st = .ackHigh ∨ t.st = .bitLow ∨ t.st = .bitHigh)) ∨
              (t.cnt = 0#15 ∧ t.st = .validate)))

/-! ### The sequencer -/

/-- R162: at an edge in IDLE the sequencer writes nothing. -/
def Obligations.IdleWritesNothing : Prop :=
  ∀ s : State, exec .idle s = .next s

/-- R162: the sequencer writes nothing in IDLE; with no reset and no command presented, any number of edges leaves every
register as it is, and the line is not driven (`OE` = 0) in a state that meets the invariant. -/
def Obligations.IdleHoldsEveryRegister : Prop :=
  ∀ (k : Nat) (s : State), legalParams s.params = true → s.timerAlone = none → s.st = .idle → NoReset k s →
    (∀ j < k, (s.inputAt j).cmdValid = false) → exec .idle s = .next s ∧
    ∃ t, runEdges k s = .next t ∧ (BlockInv s → t.driven = none) ∧
      { t with inputs := [], edge := 0, accepted := false, rdata := 0#8, ptres := none } =
        { s with inputs := [], edge := 0, accepted := false, rdata := 0#8, ptres := none }

/-- R165: one edge of REQ_LOW, for every legal `T_REQ_LOW`. -/
def Obligations.RequestLowEdge : Prop :=
  ∀ s : State, legalParams s.params = true →
    (s.cnt.toNat + 1 = s.params.tReqLow →
      exec .reqLow s = .next { s with out := true, st := .reqHigh, cnt := 0#15 }) ∧
    (s.cnt.toNat + 1 ≠ s.params.tReqLow → exec .reqLow s = .next { s with cnt := s.cnt + 1#15 })

/-- R167: one edge of REQ_HIGH, for every legal `T_REQ_HIGH`. -/
def Obligations.RequestHighEdge : Prop :=
  ∀ s : State, legalParams s.params = true →
    (s.cnt.toNat + 1 = s.params.tReqHigh →
      exec .reqHigh s = .next { s with oe := false, st := .ackLow, cnt := 0#15 }) ∧
    (s.cnt.toNat + 1 ≠ s.params.tReqHigh → exec .reqHigh s = .next { s with cnt := s.cnt + 1#15 })

/-- R169: one edge of ACK_LOW, `L` = 0, `T` = 85. -/
def Obligations.AckLowEdge : Prop := MeasuringEdge .ackLow false 85 .ackHigh

/-- R171: one edge of ACK_HIGH, `L` = 1, `T` = 85. -/
def Obligations.AckHighEdge : Prop := MeasuringEdge .ackHigh true 85 .bitLow

/-- R173: one edge of BIT_LOW, `L` = 0, `T` = 56. -/
def Obligations.BitLowEdge : Prop := MeasuringEdge .bitLow false 56 .bitHigh

/-- R175, R176: one edge of BIT_HIGH, `L` = 1, `T` = 75, request word `0x804B`. At completion data bit `BITIDX` becomes 1 exactly if the duration
exceeds 40, every other data bit keeps its value, and the sequence goes on to the next bit or to VALIDATE. -/
def Obligations.BitHighEdge : Prop :=
  Phase.bitHigh.ptreq = some 0x804B#16 ∧ ∀ s : State,
    (s.lineSample = false →
      ∃ f : Frame, f.bit s.bitidx = decide (40 < s.cnt.toNat) ∧
        (∀ n, n ≠ s.bitidx → f.bit n = s.frame.bit n) ∧
        (s.bitidx.val = 39 →
          exec .bitHigh s = .next
            { s with frame := f, st := .validate, cnt := 0#15, ptres := some (.duration s.cnt) }) ∧
        (∀ h : s.bitidx.val + 1 < 40,
          exec .bitHigh s = .next
            { s with
              frame := f, bitidx := ⟨s.bitidx.val + 1, h⟩, st := .bitLow, cnt := 1#15
              ptres := some (.duration s.cnt) })) ∧
    (s.lineSample = true → s.cnt.toNat + 1 ≤ 75 →
      exec .bitHigh s = .next { s with cnt := s.cnt + 1#15, ptres := none }) ∧
    (s.lineSample = true → 75 < s.cnt.toNat + 1 →
      exec .bitHigh s = .next
        { s with st := .idle, cnt := 0#15, outcome := .timeoutError, done := true, ptres := some .timeout })

/-- R64, R183: data bit `n` is bit `7 − (n mod 8)` of byte `n div 8`, which are `BITIDX[5:3]` and `7 − BITIDX[2:0]`; the
frame's store replaces that bit and leaves every other bit of every byte alone. -/
def Obligations.FrameStoreBitOrder : Prop :=
  (∀ (f : Frame) (n : Fin 40) (b : Bool) (i : Fin 5) (p : Nat), p < 8 →
    ((f.writeBit n b).byte i).getLsbD p =
      if i.val = n.val / 8 ∧ p = 7 - n.val % 8 then b else (f.byte i).getLsbD p) ∧
  (∀ (f : Frame) (n : Fin 40) (h : n.val / 8 < 5), f.bit n = (f.byte ⟨n.val / 8, h⟩).getLsbD (7 - n.val % 8)) ∧
  (∀ f : Frame, [f.byte 0, f.byte 1, f.byte 2, f.byte 3, f.byte 4] = [f.b0, f.b1, f.b2, f.b3, f.b4]) ∧
  (∀ s : State, (byteIndex s.bitidx).val = (s.bitidxBits.extractLsb' 3 3).toNat ∧
    bitPos s.bitidx = 7 - (s.bitidxBits.extractLsb' 0 3).toNat)

/-- R179, R181: one edge of VALIDATE. The sum is the low 8 bits of the exact sum of bytes 0 to 3. -/
def Obligations.ValidateEdge : Prop :=
  ∀ s : State,
    (s.frame.b4.toNat = (s.frame.b0.toNat + s.frame.b1.toNat + s.frame.b2.toNat + s.frame.b3.toNat) % 256 →
      exec .validate s = .next
        { s with hum := s.frame.b0, temp := s.frame.b2, outcome := .ok, done := true, st := .idle }) ∧
    (s.frame.b4.toNat ≠ (s.frame.b0.toNat + s.frame.b1.toNat + s.frame.b2.toNat + s.frame.b3.toNat) % 256 →
      exec .validate s = .next { s with outcome := .checksumError, done := true, st := .idle })

/-- The source's property S2 (`95_test_vectors.md`): flipping any one bit of byte 4 of a frame that sums right gives
`ChecksumError` and leaves the reading alone. -/
def Obligations.FlippedChecksumBitIsDetected : Prop :=
  ∀ (s : State) (f : Frame) (k : Nat), k < 8 →
    f.b4.toNat = (f.b0.toNat + f.b1.toNat + f.b2.toNat + f.b3.toNat) % 256 →
    ∃ t, exec .validate { s with frame := { f with b4 := f.b4 ^^^ (1#8 <<< k) } } = .next t ∧
      t.outcome = .checksumError ∧ t.hum = s.hum ∧ t.temp = s.temp ∧ t.done = true

/-- R211: the abort. In each measuring state a matching sample past the bound writes `OUTCOME`, `DONE`, `ST` and `CNT`,
and nothing else: the reading, the frame, `BITIDX`, `CFG`, `PIN` and the line's drive stay, and `OE` is already 0. -/
def Obligations.TimeoutAbortsTheAttempt : Prop :=
  ∀ (s : State) (w : PtWord), legalParams s.params = true → s.timerAlone = none → s.input.rst = false →
    s.st.ptreq = some w → s.lineSample = ptLevelField w → (ptTimeoutField w).toNat < s.cnt.toNat + 1 →
    ∃ t, step s = .next t ∧ t.outcome = .timeoutError ∧ t.outcomePort = 2#2 ∧ t.done = true ∧ t.st = .idle ∧
      t.cnt = 0#15 ∧ t.hum = s.hum ∧ t.temp = s.temp ∧ t.frame = s.frame ∧ t.bitidx = s.bitidx ∧
      t.cfg = s.cfg ∧ t.pin = s.pin ∧ t.oe = s.oe ∧ t.out = s.out ∧ (BlockInv s → s.oe = false)

/-! ### Rules about the whole machine -/

/-- R160, R15: every state of the block, and every input, has a successor. The timer run alone (log 6) has one too, but
for the refused operand 32767 (R98). -/
def Obligations.EveryEdgeHasASuccessor : Prop :=
  ∀ s : State, legalParams s.params = true →
    ((∀ w, s.timerAlone = some w → (ptTimeoutField w).toNat ≤ 32766) → ∃ t, step s = .next t) ∧
    (∀ w, s.timerAlone = some w → (ptTimeoutField w).toNat = 32767 → s.input.rst = false →
      step s = .refused .timeoutOperand)

/-- R10, R73, R160: the presented command and the micro-operation of one edge, each run on the pre-edge state, never write
the same register, and the step's result is both writes together. -/
def Obligations.CommandAndMicroOperationReadPreEdgeValues : Prop :=
  ∀ (s c m : State) (i : Instr), legalParams s.params = true → s.timerAlone = none → s.input.rst = false →
    s.presented = some i → exec i s.beginEdge = .next c → exec s.st.instr s.beginEdge = .next m →
    ∃ t, step s = .next t ∧
      WritesTogether s.st c.st m.st t.st ∧ WritesTogether s.bitidx c.bitidx m.bitidx t.bitidx ∧
      WritesTogether s.cnt c.cnt m.cnt t.cnt ∧ WritesTogether s.frame c.frame m.frame t.frame ∧
      WritesTogether s.hum c.hum m.hum t.hum ∧ WritesTogether s.temp c.temp m.temp t.temp ∧
      WritesTogether s.outcome c.outcome m.outcome t.outcome ∧ WritesTogether s.done c.done m.done t.done ∧
      WritesTogether s.cfg c.cfg m.cfg t.cfg ∧ WritesTogether s.pin c.pin m.pin t.pin ∧
      WritesTogether s.oe c.oe m.oe t.oe ∧ WritesTogether s.out c.out m.out t.out ∧
      t.accepted = c.accepted ∧ t.rdata = c.rdata ∧ t.ptres = m.ptres

/-- R27: `ST` advances only as the table says, and in every other case keeps its value. -/
def Obligations.StAdvancesOnlyAsTheTableSays : Prop :=
  ∀ s t : State, s.timerAlone = none → step s = .next t → t.st = phaseAfter s

/-- R23: `HUM` and `TEMP` are written only by reset and by VALIDATE with a matching checksum, where both take the frame's
values at the same edge; at every other edge both keep their values. -/
def Obligations.ReadingWrittenOnlyByAGoodFrame : Prop :=
  ∀ s t : State, step s = .next t →
    (s.input.rst = true ∧ t.hum = 0#8 ∧ t.temp = 0#8) ∨
      (s.input.rst = false ∧ t.hum = s.hum ∧ t.temp = s.temp) ∨
      (s.input.rst = false ∧ s.timerAlone = none ∧ s.st = .validate ∧
        s.frame.b4.toNat = (s.frame.b0.toNat + s.frame.b1.toNat + s.frame.b2.toNat + s.frame.b3.toNat) % 256 ∧
        t.hum = s.frame.b0 ∧ t.temp = s.frame.b2 ∧ t.outcome = .ok ∧ t.done = true)

/-- R29, R30: with `rst` = 0 `OUTCOME` is written only at the edge that ends an attempt, where VALIDATE gives 0 or 1 and
every other end is a timeout, 2; `DONE` is set at that edge, cleared where a READ is accepted, and otherwise keeps its
value; reset clears both. In a state that meets the invariant `DONE` = 1 says that no attempt is running. -/
def Obligations.DoneAndOutcomeMarkTheEndOfAnAttempt : Prop :=
  ReadOutcome.ok.code = 0#2 ∧ ReadOutcome.checksumError.code = 1#2 ∧ ReadOutcome.timeoutError.code = 2#2 ∧
  ∀ s t : State, s.timerAlone = none → step s = .next t → t.outcomePort ≠ 3#2 ∧
    (BlockInv s → t.done = true → t.busyPort = false) ∧
    (s.input.rst = true → t.done = false ∧ t.outcomePort = 0#2) ∧ (s.input.rst = false →
    (s.st ≠ .idle → t.st = .idle →
      t.done = true ∧ (s.st = .validate → t.outcome = .ok ∨ t.outcome = .checksumError) ∧
        (s.st ≠ .validate → t.outcome = .timeoutError)) ∧
    (¬(s.st ≠ .idle ∧ t.st = .idle) → t.outcome = s.outcome ∧
      t.done = (s.done && !(s.accepting && decide (s.input.cmdOp = 0b01#2)))))

/-- R32, and R33 in part: `PIN` and `CFG` are written by an accepted CFGPIN, in IDLE, and by reset, and by nothing else; a
READ is accepted only while `CFG` = 1. -/
def Obligations.PinAndCfgWrittenOnlyByCfgPin : Prop :=
  ∀ s t : State, s.timerAlone = none → step s = .next t →
    (s.input.rst = true → t.cfg = false ∧ t.pin = 0#8) ∧ (s.accepting = true → s.input.cmdOp = 0b01#2 → s.cfg = true) ∧
    (s.input.rst = false →
    (s.accepting = true → s.input.cmdOp = 0b00#2 → s.st = .idle ∧ t.pin = s.input.cmdArg ∧ t.cfg = true) ∧
    (¬(s.accepting = true ∧ s.input.cmdOp = 0b00#2) → t.pin = s.pin ∧ t.cfg = s.cfg) ∧
    (s.st ≠ .idle → t.pin = s.pin ∧ t.cfg = s.cfg))

/-- R20, R63: with `rst` = 0 the frame buffer changes only where BIT_HIGH completes, by one bit: the bit `BITIDX`. -/
def Obligations.FrameWrittenOnlyByBitHigh : Prop :=
  ∀ s t : State, step s = .next t → s.input.rst = false →
    ∀ n : Fin 40, t.frame.bit n ≠ s.frame.bit n →
      s.timerAlone = none ∧ s.st = .bitHigh ∧ s.lineSample = false ∧ n = s.bitidx ∧
        t.frame.bit n = decide (40 < s.cnt.toNat)

/-- The configuration and the inputs still to come are not the block's to write (logs 1, 4, 6): every step keeps the
parameters, uses up one edge's inputs, and never starts the timer alone. -/
def Obligations.StepKeepsTheConfiguration : Prop :=
  ∀ s t : State, step s = .next t →
    t.params = s.params ∧ t.inputs = s.inputs.tail ∧ t.edge = s.edge + 1 ∧
      (t.timerAlone = none ∨ t.timerAlone = s.timerAlone)

/-- The spec's own inference in `10_state.md` section 7 ("Invariants that hold after reset at every edge"): every step keeps
it, from every state that meets it, on every input. -/
def Obligations.EveryStepKeepsTheBlockInvariant : Prop :=
  ∀ s t : State, BlockInv s → step s = .next t → BlockInv t

/-- `State.reset` meets the invariant. -/
def Obligations.ResetMeetsTheBlockInvariant : Prop :=
  BlockInv State.reset ∧ BitidxInPlace State.reset

/-- R26 and the remark of R171 ("`BITIDX` is already 0 since the READ"): every step keeps the place of `BITIDX` in the
sequence. -/
def Obligations.EveryStepKeepsBitidxInPlace : Prop :=
  ∀ s t : State, BitidxInPlace s → step s = .next t → BitidxInPlace t

/-- The spec's own inference in `10_state.md` section 3: `BUSY` and `DONE` are never both 1. -/
def Obligations.BusyAndDoneAreNeverBothOne : Prop :=
  ∀ (k : Nat) (s t : State), BlockInv s → runEdges k s = .next t → ¬(t.busyPort = true ∧ t.donePort = true)

/-- R62, R34: the line is driven low exactly in REQ_LOW, high exactly in REQ_HIGH, and not at all otherwise, after any
number of edges from a state that meets the invariant, whatever the inputs. -/
def Obligations.LineDrivenOnlyInTheRequestPhase : Prop :=
  ∀ (k : Nat) (s t : State), BlockInv s → runEdges k s = .next t →
    (t.driven = some false ↔ t.st = .reqLow) ∧ (t.driven = some true ↔ t.st = .reqHigh) ∧
      (t.driven = none ↔ t.st ≠ .reqLow ∧ t.st ≠ .reqHigh) ∧ (t.lineOe = true ↔ t.driven ≠ none)

/-- `10_state.md` section 4 ("`CNT` never wraps", "The largest value ever held is `T_REQ_LOW` − 1 ≤ 32766", the spec's own
inference) and R151: in a state that meets the invariant `CNT` is at most `T_REQ_LOW` − 1, so `CNT + 1` fits 15 bits; an
edge keeps `CNT` or adds exactly one to it, and sets it to 0 or 1 only where `ST` changes. -/
def Obligations.CounterNeverWraps : Prop :=
  ∀ s t : State, BlockInv s → step s = .next t →
    s.cnt.toNat ≤ s.params.tReqLow - 1 ∧ s.params.tReqLow - 1 ≤ 32766 ∧ s.cnt.toNat + 1 < 2 ^ 15 ∧
      (t.cnt = s.cnt ∨ t.cnt.toNat = s.cnt.toNat + 1 ∨ (t.st ≠ s.st ∧ (t.cnt = 0#15 ∨ t.cnt = 1#15)))

/-- R77, R76: while the block is busy nothing a host presents changes what it does next: two states that differ only in
the commands presented go on to states that differ only in the command port's wires. -/
def Obligations.HostCannotDisturbAnAttempt : Prop :=
  ∀ s t s' : State, SameButCommands s t → s.timerAlone = none → s.st ≠ .idle → step s = .next s' →
    ∃ t', step t = .next t' ∧
      { s' with inputs := [], accepted := false, rdata := 0#8 } =
        { t' with inputs := [], accepted := false, rdata := 0#8 }

/-- R39, R61: the sample is used only in the four measuring states: elsewhere the level of the line changes nothing. -/
def Obligations.LineIgnoredOutsideMeasurements : Prop :=
  ∀ (s : State) (level : Level), s.timerAlone = none → s.st.ptreq = none →
    step { s with inputs := { s.input with lineIn := level } :: s.inputs.tail } = step s

/-- U1 and R20 ("this is unobservable"): frame bits that the running attempt has not written never reach the reading, the
outcome or any other register, however long the run and whatever the inputs. -/
def Obligations.StaleFrameBitsNeverMatter : Prop :=
  ∀ (k : Nat) (s t s' : State), SameButStaleFrame s t → BitidxInPlace s → runEdges k s = .next s' →
    ∃ t', runEdges k t = .next t' ∧ SameButStaleFrame s' t' ∧ s'.hum = t'.hum ∧ s'.temp = t'.temp ∧
      s'.outcome = t'.outcome ∧ s'.done = t'.done

/-! ### A whole read attempt -/

/-- R123 as a step: where a READ is accepted, the edge starts an attempt, in the same configuration. -/
def Obligations.AcceptedReadStartsAnAttempt : Prop :=
  ∀ s : State, BlockInv s → s.input.rst = false → s.input.cmdValid = true → s.input.cmdOp = 0b01#2 →
    s.st = .idle → s.cfg = true →
    ∃ t, step s = .next t ∧ AttemptStart t ∧ t.params = s.params ∧ t.hum = s.hum ∧ t.temp = s.temp ∧
      t.outcome = s.outcome ∧ t.busyPort = true ∧ t.donePort = false ∧ t.driven = some false

/-- The request phase, the spec's own inference in `42_protocol_driver.md` section 2: from the accepted READ the line is
driven low for exactly `T_REQ_LOW` ticks, then high for exactly `T_REQ_HIGH` ticks, then not driven. -/
def Obligations.RequestPhaseDrivesTheLine : Prop :=
  ∀ s : State, AttemptStart s → NoReset (releaseEdge s) s →
    (∀ k < s.params.tReqLow, ∃ t, runEdges k s = .next t ∧ t.st = .reqLow ∧ t.cnt.toNat = k ∧
      t.driven = some false) ∧
    (∀ k < s.params.tReqHigh, ∃ t, runEdges (s.params.tReqLow + k) s = .next t ∧ t.st = .reqHigh ∧
      t.cnt.toNat = k ∧ t.driven = some true) ∧
    ∃ t, runEdges (releaseEdge s) s = .next t ∧ t.st = .ackLow ∧ t.cnt = 0#15 ∧ t.bitidx = 0 ∧ t.driven = none

/-- A whole attempt on a well-formed reply, the spec's own inference in `42_protocol_driver.md` section 7 and the source's
property S1: 82 runs within their bounds and a low sample after them. `DONE` rises at edge E + N + 2 and not earlier;
data bit i is 1 exactly if its high run is longer than 40; the checksum decides between `Ok`, which updates the reading,
and `ChecksumError`, which does not. For every legal configuration, whatever the host presents meanwhile. -/
def Obligations.WellFormedReplyIsDecoded : Prop :=
  ∀ (s : State) (ds : List Nat) (hd : ds.length = 82), AttemptStart s → RunsWithin 0 ds →
    SamplesFrom s (releaseEdge s) (waveform 0 ds ++ [false]) → NoReset (releaseEdge s + ds.sum + 2) s →
    (∀ k < releaseEdge s + ds.sum + 2, ∃ u, runEdges k s = .next u ∧ u.done = false) ∧
    ∃ t, runEdges (releaseEdge s + ds.sum + 2) s = .next t ∧ t.done = true ∧ t.st = .idle ∧
      (∀ n : Fin 40, t.frame.bit n = decide (40 < ds[2 * n.val + 3])) ∧
      (t.frame.b4.toNat = (t.frame.b0.toNat + t.frame.b1.toNat + t.frame.b2.toNat + t.frame.b3.toNat) % 256 →
        t.outcome = .ok ∧ t.hum = t.frame.b0 ∧ t.temp = t.frame.b2) ∧
      (t.frame.b4.toNat ≠ (t.frame.b0.toNat + t.frame.b1.toNat + t.frame.b2.toNat + t.frame.b3.toNat) % 256 →
        t.outcome = .checksumError ∧ t.hum = s.hum ∧ t.temp = s.temp)

/-- A whole attempt on a reply with an overlong run, from the same inference (`42_protocol_driver.md` section 7, the
source's S3 and S4): the first run longer than its bound ends the attempt with `TimeoutError` at its (bound + 1)-th
sample and not earlier, whichever run it is, and the reading is unchanged. -/
def Obligations.OverlongRunTimesOut : Prop :=
  ∀ (s : State) (ds : List Nat), ds.length < 82 → AttemptStart s → RunsWithin 0 ds →
    SamplesFrom s (releaseEdge s)
      (waveform 0 ds ++ List.replicate (runBound ds.length + 1) (runLevel ds.length)) →
    NoReset (releaseEdge s + ds.sum + runBound ds.length + 1) s →
    (∀ k < releaseEdge s + ds.sum + runBound ds.length + 1, ∃ u, runEdges k s = .next u ∧ u.done = false) ∧
    ∃ t, runEdges (releaseEdge s + ds.sum + runBound ds.length + 1) s = .next t ∧ t.done = true ∧ t.st = .idle ∧
      t.outcome = .timeoutError ∧ t.cnt = 0#15 ∧ t.hum = s.hum ∧ t.temp = s.temp

/-- The bounds on an attempt, the spec's own inference in `70_reset_and_hazards.md` section 4: on every input without a
reset, `DONE` rises between E + 58 and E + 5412 edges after the accepted READ; a timeout no later than E + 5411, `Ok` or
`ChecksumError` no earlier than E + 83. The block cannot hang. -/
def Obligations.EveryAttemptEndsWithinItsBounds : Prop :=
  ∀ s : State, AttemptStart s → NoReset (releaseEdge s + 5412) s →
    ∃ k t, releaseEdge s + 58 ≤ k ∧ k ≤ releaseEdge s + 5412 ∧ runEdges k s = .next t ∧ t.done = true ∧
      t.st = .idle ∧ (t.outcome = .timeoutError → k ≤ releaseEdge s + 5411) ∧
      (t.outcome ≠ .timeoutError → releaseEdge s + 83 ≤ k) ∧
      ∀ j < k, ∃ u, runEdges j s = .next u ∧ u.done = false ∧ u.st ≠ .idle
end

