-- ==== Sys2Proof/Laws/State.lean ====
section
/-! SUPPORT. One lemma per field per update of the state, each true by unfolding the update, so that no later proof
unfolds one. -/

namespace Sys2Proof.Machine

@[simp] theorem State.lineDrive_st (s : State) (oe out : Bool) : (s.lineDrive oe out).st = s.st := rfl
@[simp] theorem State.lineDrive_bitidx (s : State) (oe out : Bool) : (s.lineDrive oe out).bitidx = s.bitidx := rfl
@[simp] theorem State.lineDrive_cnt (s : State) (oe out : Bool) : (s.lineDrive oe out).cnt = s.cnt := rfl
@[simp] theorem State.lineDrive_frame (s : State) (oe out : Bool) : (s.lineDrive oe out).frame = s.frame := rfl
@[simp] theorem State.lineDrive_hum (s : State) (oe out : Bool) : (s.lineDrive oe out).hum = s.hum := rfl
@[simp] theorem State.lineDrive_temp (s : State) (oe out : Bool) : (s.lineDrive oe out).temp = s.temp := rfl
@[simp] theorem State.lineDrive_outcome (s : State) (oe out : Bool) : (s.lineDrive oe out).outcome = s.outcome := rfl
@[simp] theorem State.lineDrive_done (s : State) (oe out : Bool) : (s.lineDrive oe out).done = s.done := rfl
@[simp] theorem State.lineDrive_cfg (s : State) (oe out : Bool) : (s.lineDrive oe out).cfg = s.cfg := rfl
@[simp] theorem State.lineDrive_pin (s : State) (oe out : Bool) : (s.lineDrive oe out).pin = s.pin := rfl
@[simp] theorem State.lineDrive_oe (s : State) (oe out : Bool) : (s.lineDrive oe out).oe = oe := rfl
@[simp] theorem State.lineDrive_out (s : State) (oe out : Bool) : (s.lineDrive oe out).out = out := rfl
@[simp] theorem State.lineDrive_params (s : State) (oe out : Bool) : (s.lineDrive oe out).params = s.params := rfl
@[simp] theorem State.lineDrive_inputs (s : State) (oe out : Bool) : (s.lineDrive oe out).inputs = s.inputs := rfl
@[simp] theorem State.lineDrive_edge (s : State) (oe out : Bool) : (s.lineDrive oe out).edge = s.edge := rfl
@[simp] theorem State.lineDrive_accepted (s : State) (oe out : Bool) : (s.lineDrive oe out).accepted = s.accepted := rfl
@[simp] theorem State.lineDrive_rdata (s : State) (oe out : Bool) : (s.lineDrive oe out).rdata = s.rdata := rfl
@[simp] theorem State.lineDrive_ptres (s : State) (oe out : Bool) : (s.lineDrive oe out).ptres = s.ptres := rfl
@[simp] theorem State.lineDrive_timerAlone (s : State) (oe out : Bool) : (s.lineDrive oe out).timerAlone = s.timerAlone := rfl

@[simp] theorem State.respond_st (s : State) (a : Bool) (r : Byte) : (s.respond a r).st = s.st := rfl
@[simp] theorem State.respond_bitidx (s : State) (a : Bool) (r : Byte) : (s.respond a r).bitidx = s.bitidx := rfl
@[simp] theorem State.respond_cnt (s : State) (a : Bool) (r : Byte) : (s.respond a r).cnt = s.cnt := rfl
@[simp] theorem State.respond_frame (s : State) (a : Bool) (r : Byte) : (s.respond a r).frame = s.frame := rfl
@[simp] theorem State.respond_hum (s : State) (a : Bool) (r : Byte) : (s.respond a r).hum = s.hum := rfl
@[simp] theorem State.respond_temp (s : State) (a : Bool) (r : Byte) : (s.respond a r).temp = s.temp := rfl
@[simp] theorem State.respond_outcome (s : State) (a : Bool) (r : Byte) : (s.respond a r).outcome = s.outcome := rfl
@[simp] theorem State.respond_done (s : State) (a : Bool) (r : Byte) : (s.respond a r).done = s.done := rfl
@[simp] theorem State.respond_cfg (s : State) (a : Bool) (r : Byte) : (s.respond a r).cfg = s.cfg := rfl
@[simp] theorem State.respond_pin (s : State) (a : Bool) (r : Byte) : (s.respond a r).pin = s.pin := rfl
@[simp] theorem State.respond_oe (s : State) (a : Bool) (r : Byte) : (s.respond a r).oe = s.oe := rfl
@[simp] theorem State.respond_out (s : State) (a : Bool) (r : Byte) : (s.respond a r).out = s.out := rfl
@[simp] theorem State.respond_params (s : State) (a : Bool) (r : Byte) : (s.respond a r).params = s.params := rfl
@[simp] theorem State.respond_inputs (s : State) (a : Bool) (r : Byte) : (s.respond a r).inputs = s.inputs := rfl
@[simp] theorem State.respond_edge (s : State) (a : Bool) (r : Byte) : (s.respond a r).edge = s.edge := rfl
@[simp] theorem State.respond_accepted (s : State) (a : Bool) (r : Byte) : (s.respond a r).accepted = a := rfl
@[simp] theorem State.respond_rdata (s : State) (a : Bool) (r : Byte) : (s.respond a r).rdata = r := rfl
@[simp] theorem State.respond_ptres (s : State) (a : Bool) (r : Byte) : (s.respond a r).ptres = s.ptres := rfl
@[simp] theorem State.respond_timerAlone (s : State) (a : Bool) (r : Byte) : (s.respond a r).timerAlone = s.timerAlone := rfl

@[simp] theorem State.notAccepted_st (s : State) : (s.notAccepted).st = s.st := rfl
@[simp] theorem State.notAccepted_bitidx (s : State) : (s.notAccepted).bitidx = s.bitidx := rfl
@[simp] theorem State.notAccepted_cnt (s : State) : (s.notAccepted).cnt = s.cnt := rfl
@[simp] theorem State.notAccepted_frame (s : State) : (s.notAccepted).frame = s.frame := rfl
@[simp] theorem State.notAccepted_hum (s : State) : (s.notAccepted).hum = s.hum := rfl
@[simp] theorem State.notAccepted_temp (s : State) : (s.notAccepted).temp = s.temp := rfl
@[simp] theorem State.notAccepted_outcome (s : State) : (s.notAccepted).outcome = s.outcome := rfl
@[simp] theorem State.notAccepted_done (s : State) : (s.notAccepted).done = s.done := rfl
@[simp] theorem State.notAccepted_cfg (s : State) : (s.notAccepted).cfg = s.cfg := rfl
@[simp] theorem State.notAccepted_pin (s : State) : (s.notAccepted).pin = s.pin := rfl
@[simp] theorem State.notAccepted_oe (s : State) : (s.notAccepted).oe = s.oe := rfl
@[simp] theorem State.notAccepted_out (s : State) : (s.notAccepted).out = s.out := rfl
@[simp] theorem State.notAccepted_params (s : State) : (s.notAccepted).params = s.params := rfl
@[simp] theorem State.notAccepted_inputs (s : State) : (s.notAccepted).inputs = s.inputs := rfl
@[simp] theorem State.notAccepted_edge (s : State) : (s.notAccepted).edge = s.edge := rfl
@[simp] theorem State.notAccepted_accepted (s : State) : (s.notAccepted).accepted = false := rfl
@[simp] theorem State.notAccepted_rdata (s : State) : (s.notAccepted).rdata = 0#8 := rfl
@[simp] theorem State.notAccepted_ptres (s : State) : (s.notAccepted).ptres = s.ptres := rfl
@[simp] theorem State.notAccepted_timerAlone (s : State) : (s.notAccepted).timerAlone = s.timerAlone := rfl

@[simp] theorem State.raiseTimeout_st (s : State) : (s.raiseTimeout).st = .idle := rfl
@[simp] theorem State.raiseTimeout_bitidx (s : State) : (s.raiseTimeout).bitidx = s.bitidx := rfl
@[simp] theorem State.raiseTimeout_cnt (s : State) : (s.raiseTimeout).cnt = 0#15 := rfl
@[simp] theorem State.raiseTimeout_frame (s : State) : (s.raiseTimeout).frame = s.frame := rfl
@[simp] theorem State.raiseTimeout_hum (s : State) : (s.raiseTimeout).hum = s.hum := rfl
@[simp] theorem State.raiseTimeout_temp (s : State) : (s.raiseTimeout).temp = s.temp := rfl
@[simp] theorem State.raiseTimeout_outcome (s : State) : (s.raiseTimeout).outcome = .timeoutError := rfl
@[simp] theorem State.raiseTimeout_done (s : State) : (s.raiseTimeout).done = true := rfl
@[simp] theorem State.raiseTimeout_cfg (s : State) : (s.raiseTimeout).cfg = s.cfg := rfl
@[simp] theorem State.raiseTimeout_pin (s : State) : (s.raiseTimeout).pin = s.pin := rfl
@[simp] theorem State.raiseTimeout_oe (s : State) : (s.raiseTimeout).oe = s.oe := rfl
@[simp] theorem State.raiseTimeout_out (s : State) : (s.raiseTimeout).out = s.out := rfl
@[simp] theorem State.raiseTimeout_params (s : State) : (s.raiseTimeout).params = s.params := rfl
@[simp] theorem State.raiseTimeout_inputs (s : State) : (s.raiseTimeout).inputs = s.inputs := rfl
@[simp] theorem State.raiseTimeout_edge (s : State) : (s.raiseTimeout).edge = s.edge := rfl
@[simp] theorem State.raiseTimeout_accepted (s : State) : (s.raiseTimeout).accepted = s.accepted := rfl
@[simp] theorem State.raiseTimeout_rdata (s : State) : (s.raiseTimeout).rdata = s.rdata := rfl
@[simp] theorem State.raiseTimeout_ptres (s : State) : (s.raiseTimeout).ptres = s.ptres := rfl
@[simp] theorem State.raiseTimeout_timerAlone (s : State) : (s.raiseTimeout).timerAlone = s.timerAlone := rfl

@[simp] theorem State.handover_st (s : State) (p : Phase) : (s.handover p).st = p := rfl
@[simp] theorem State.handover_bitidx (s : State) (p : Phase) : (s.handover p).bitidx = s.bitidx := rfl
@[simp] theorem State.handover_cnt (s : State) (p : Phase) : (s.handover p).cnt = 1#15 := rfl
@[simp] theorem State.handover_frame (s : State) (p : Phase) : (s.handover p).frame = s.frame := rfl
@[simp] theorem State.handover_hum (s : State) (p : Phase) : (s.handover p).hum = s.hum := rfl
@[simp] theorem State.handover_temp (s : State) (p : Phase) : (s.handover p).temp = s.temp := rfl
@[simp] theorem State.handover_outcome (s : State) (p : Phase) : (s.handover p).outcome = s.outcome := rfl
@[simp] theorem State.handover_done (s : State) (p : Phase) : (s.handover p).done = s.done := rfl
@[simp] theorem State.handover_cfg (s : State) (p : Phase) : (s.handover p).cfg = s.cfg := rfl
@[simp] theorem State.handover_pin (s : State) (p : Phase) : (s.handover p).pin = s.pin := rfl
@[simp] theorem State.handover_oe (s : State) (p : Phase) : (s.handover p).oe = s.oe := rfl
@[simp] theorem State.handover_out (s : State) (p : Phase) : (s.handover p).out = s.out := rfl
@[simp] theorem State.handover_params (s : State) (p : Phase) : (s.handover p).params = s.params := rfl
@[simp] theorem State.handover_inputs (s : State) (p : Phase) : (s.handover p).inputs = s.inputs := rfl
@[simp] theorem State.handover_edge (s : State) (p : Phase) : (s.handover p).edge = s.edge := rfl
@[simp] theorem State.handover_accepted (s : State) (p : Phase) : (s.handover p).accepted = s.accepted := rfl
@[simp] theorem State.handover_rdata (s : State) (p : Phase) : (s.handover p).rdata = s.rdata := rfl
@[simp] theorem State.handover_ptres (s : State) (p : Phase) : (s.handover p).ptres = s.ptres := rfl
@[simp] theorem State.handover_timerAlone (s : State) (p : Phase) : (s.handover p).timerAlone = s.timerAlone := rfl

@[simp] theorem State.beginEdge_st (s : State) : (s.beginEdge).st = s.st := rfl
@[simp] theorem State.beginEdge_bitidx (s : State) : (s.beginEdge).bitidx = s.bitidx := rfl
@[simp] theorem State.beginEdge_cnt (s : State) : (s.beginEdge).cnt = s.cnt := rfl
@[simp] theorem State.beginEdge_frame (s : State) : (s.beginEdge).frame = s.frame := rfl
@[simp] theorem State.beginEdge_hum (s : State) : (s.beginEdge).hum = s.hum := rfl
@[simp] theorem State.beginEdge_temp (s : State) : (s.beginEdge).temp = s.temp := rfl
@[simp] theorem State.beginEdge_outcome (s : State) : (s.beginEdge).outcome = s.outcome := rfl
@[simp] theorem State.beginEdge_done (s : State) : (s.beginEdge).done = s.done := rfl
@[simp] theorem State.beginEdge_cfg (s : State) : (s.beginEdge).cfg = s.cfg := rfl
@[simp] theorem State.beginEdge_pin (s : State) : (s.beginEdge).pin = s.pin := rfl
@[simp] theorem State.beginEdge_oe (s : State) : (s.beginEdge).oe = s.oe := rfl
@[simp] theorem State.beginEdge_out (s : State) : (s.beginEdge).out = s.out := rfl
@[simp] theorem State.beginEdge_params (s : State) : (s.beginEdge).params = s.params := rfl
@[simp] theorem State.beginEdge_inputs (s : State) : (s.beginEdge).inputs = s.inputs := rfl
@[simp] theorem State.beginEdge_edge (s : State) : (s.beginEdge).edge = s.edge := rfl
@[simp] theorem State.beginEdge_accepted (s : State) : (s.beginEdge).accepted = false := rfl
@[simp] theorem State.beginEdge_rdata (s : State) : (s.beginEdge).rdata = 0#8 := rfl
@[simp] theorem State.beginEdge_ptres (s : State) : (s.beginEdge).ptres = none := rfl
@[simp] theorem State.beginEdge_timerAlone (s : State) : (s.beginEdge).timerAlone = s.timerAlone := rfl

@[simp] theorem State.endEdge_st (s : State) : (s.endEdge).st = s.st := rfl
@[simp] theorem State.endEdge_bitidx (s : State) : (s.endEdge).bitidx = s.bitidx := rfl
@[simp] theorem State.endEdge_cnt (s : State) : (s.endEdge).cnt = s.cnt := rfl
@[simp] theorem State.endEdge_frame (s : State) : (s.endEdge).frame = s.frame := rfl
@[simp] theorem State.endEdge_hum (s : State) : (s.endEdge).hum = s.hum := rfl
@[simp] theorem State.endEdge_temp (s : State) : (s.endEdge).temp = s.temp := rfl
@[simp] theorem State.endEdge_outcome (s : State) : (s.endEdge).outcome = s.outcome := rfl
@[simp] theorem State.endEdge_done (s : State) : (s.endEdge).done = s.done := rfl
@[simp] theorem State.endEdge_cfg (s : State) : (s.endEdge).cfg = s.cfg := rfl
@[simp] theorem State.endEdge_pin (s : State) : (s.endEdge).pin = s.pin := rfl
@[simp] theorem State.endEdge_oe (s : State) : (s.endEdge).oe = s.oe := rfl
@[simp] theorem State.endEdge_out (s : State) : (s.endEdge).out = s.out := rfl
@[simp] theorem State.endEdge_params (s : State) : (s.endEdge).params = s.params := rfl
@[simp] theorem State.endEdge_inputs (s : State) : (s.endEdge).inputs = s.inputs.tail := rfl
@[simp] theorem State.endEdge_edge (s : State) : (s.endEdge).edge = s.edge + 1 := rfl
@[simp] theorem State.endEdge_accepted (s : State) : (s.endEdge).accepted = s.accepted := rfl
@[simp] theorem State.endEdge_rdata (s : State) : (s.endEdge).rdata = s.rdata := rfl
@[simp] theorem State.endEdge_ptres (s : State) : (s.endEdge).ptres = s.ptres := rfl
@[simp] theorem State.endEdge_timerAlone (s : State) : (s.endEdge).timerAlone = if s.ptres = none then s.timerAlone else none := rfl

@[simp] theorem State.resetEdge_st (s : State) : (s.resetEdge).st = .idle := rfl
@[simp] theorem State.resetEdge_bitidx (s : State) : (s.resetEdge).bitidx = 0 := rfl
@[simp] theorem State.resetEdge_cnt (s : State) : (s.resetEdge).cnt = 0#15 := rfl
@[simp] theorem State.resetEdge_frame (s : State) : (s.resetEdge).frame = freeFrame s.edge := rfl
@[simp] theorem State.resetEdge_hum (s : State) : (s.resetEdge).hum = 0#8 := rfl
@[simp] theorem State.resetEdge_temp (s : State) : (s.resetEdge).temp = 0#8 := rfl
@[simp] theorem State.resetEdge_outcome (s : State) : (s.resetEdge).outcome = .ok := rfl
@[simp] theorem State.resetEdge_done (s : State) : (s.resetEdge).done = false := rfl
@[simp] theorem State.resetEdge_cfg (s : State) : (s.resetEdge).cfg = false := rfl
@[simp] theorem State.resetEdge_pin (s : State) : (s.resetEdge).pin = 0#8 := rfl
@[simp] theorem State.resetEdge_oe (s : State) : (s.resetEdge).oe = false := rfl
@[simp] theorem State.resetEdge_out (s : State) : (s.resetEdge).out = true := rfl
@[simp] theorem State.resetEdge_params (s : State) : (s.resetEdge).params = s.params := rfl
@[simp] theorem State.resetEdge_inputs (s : State) : (s.resetEdge).inputs = s.inputs.tail := rfl
@[simp] theorem State.resetEdge_edge (s : State) : (s.resetEdge).edge = s.edge + 1 := rfl
@[simp] theorem State.resetEdge_accepted (s : State) : (s.resetEdge).accepted = false := rfl
@[simp] theorem State.resetEdge_rdata (s : State) : (s.resetEdge).rdata = 0#8 := rfl
@[simp] theorem State.resetEdge_ptres (s : State) : (s.resetEdge).ptres = none := rfl
@[simp] theorem State.resetEdge_timerAlone (s : State) : (s.resetEdge).timerAlone = none := rfl

/-- Reading the inputs does not depend on any other field than `inputs` and `edge`. -/
theorem State.input_congr {s t : State} (hi : s.inputs = t.inputs) (he : s.edge = t.edge) : s.input = t.input := by
  simp [State.input, hi, he]

@[simp] theorem State.beginEdge_input (s : State) : s.beginEdge.input = s.input := rfl
@[simp] theorem State.beginEdge_lineSample (s : State) : s.beginEdge.lineSample = s.lineSample := rfl
@[simp] theorem State.respond_lineSample (s : State) (a : Bool) (r : Byte) :
    (s.respond a r).lineSample = s.lineSample := rfl
@[simp] theorem State.notAccepted_lineSample (s : State) : s.notAccepted.lineSample = s.lineSample := rfl

/-- The inputs of the next edge, written with `inputAt`. -/
theorem State.inputAt_zero (s : State) : s.inputAt 0 = s.input := rfl

/-- The inputs after an edge are those before it, one edge on: whatever else the edge did. -/
theorem State.inputAt_succ {s t : State} (hi : t.inputs = s.inputs.tail) (he : t.edge = s.edge + 1) (k : Nat) :
    t.inputAt k = s.inputAt (k + 1) := by
  have hd : s.inputs.tail.drop k = s.inputs.drop (k + 1) := by simp
  simp only [State.inputAt, hi, he, hd, Nat.add_assoc, Nat.add_comm 1 k]

end Sys2Proof.Machine
end

