-- ==== Sys2Proof/Laws/Ops.lean ====
section
/-! SUPPORT. What each shared operation can do, said once. -/

namespace Sys2Proof.Machine

@[simp] theorem andThen_next (s : State) (k : State → Host.Outcome State Fault Refusal) :
    andThen (.next s) k = k s := rfl

@[simp] theorem andThen_refused (r : Refusal) (k : State → Host.Outcome State Fault Refusal) :
    andThen (.refused r) k = .refused r := rfl

/-- A sequence answers a next state only if both of its parts do. -/
theorem andThen_eq_next {o : Host.Outcome State Fault Refusal} {k : State → Host.Outcome State Fault Refusal}
    {t : State} (h : andThen o k = .next t) : ∃ u, o = .next u ∧ k u = .next t := by
  cases o with
  | next u => exact ⟨u, rfl, h⟩
  | fault r => exact nomatch h
  | refused r => exact nomatch h

/-- A differing sample ends the measurement with the count as its duration. -/
theorem State.measureEdge_of_ne {s : State} {level : Level} (timeout : Count) (h : s.lineSample ≠ level) :
    s.measureEdge level timeout = { s with ptres := some (.duration s.cnt) } := by
  simp [State.measureEdge, h]

/-- A matching sample past the bound gives the timeout signal. -/
theorem State.measureEdge_timeout {s : State} {level : Level} {timeout : Count} (h : s.lineSample = level)
    (ht : timeout.toNat < s.cnt.toNat + 1) :
    s.measureEdge level timeout = { s with ptres := some .timeout } := by
  simp [State.measureEdge, h, ht]

/-- A matching sample within the bound is counted. -/
theorem State.measureEdge_count {s : State} {level : Level} {timeout : Count} (h : s.lineSample = level)
    (ht : s.cnt.toNat + 1 ≤ timeout.toNat) :
    s.measureEdge level timeout = { s with cnt := s.cnt + 1#15, ptres := none } := by
  simp [State.measureEdge, h, Nat.not_lt.mpr ht]

/-- The three ways one edge of a measuring state can go. -/
theorem State.measuring_eq (s : State) (level : Level) (timeout : Count) (complete : Count → State → State) :
    s.measuring level timeout complete =
      if s.lineSample = level then
        if timeout.toNat < s.cnt.toNat + 1 then { s with ptres := some .timeout : State }.raiseTimeout
        else { s with cnt := s.cnt + 1#15, ptres := none }
      else complete s.cnt { s with ptres := some (.duration s.cnt) } := by
  unfold State.measuring State.measureEdge
  by_cases h : s.lineSample = level
  · by_cases ht : timeout.toNat < s.cnt.toNat + 1 <;> simp [h, ht]
  · simp [h]

/-- A differing sample completes a measuring state with the count as the duration. -/
theorem State.measuring_of_ne {s : State} {level : Level} (timeout : Count) (complete : Count → State → State)
    (h : s.lineSample ≠ level) :
    s.measuring level timeout complete = complete s.cnt { s with ptres := some (.duration s.cnt) } := by
  rw [State.measuring_eq, if_neg h]

/-- A matching sample within the bound is counted and leaves the measuring state. -/
theorem State.measuring_count {s : State} {level : Level} {timeout : Count} (complete : Count → State → State)
    (h : s.lineSample = level) (ht : s.cnt.toNat + 1 ≤ timeout.toNat) :
    s.measuring level timeout complete = { s with cnt := s.cnt + 1#15, ptres := none } := by
  rw [State.measuring_eq, if_pos h, if_neg (Nat.not_lt.mpr ht)]

/-- A matching sample past the bound raises Timeout. -/
theorem State.measuring_timeout {s : State} {level : Level} {timeout : Count} (complete : Count → State → State)
    (h : s.lineSample = level) (ht : timeout.toNat < s.cnt.toNat + 1) :
    s.measuring level timeout complete = { s with ptres := some .timeout : State }.raiseTimeout := by
  rw [State.measuring_eq, if_pos h, if_pos ht]

/-- `CNT + 1` does not wrap below the largest 15-bit number (R180). -/
theorem cnt_add_one_toNat {c : Count} (h : c.toNat + 1 < 32768) : (c + 1#15).toNat = c.toNat + 1 := by
  rw [BitVec.toNat_add]
  exact Nat.mod_eq_of_lt (by simpa using h)

/-- A counted sample adds one to `CNT` without wrapping, since the timeout operand is a 15-bit number (R180). -/
theorem cnt_succ_toNat {c timeout : Count} (h : c.toNat + 1 ≤ timeout.toNat) : (c + 1#15).toNat = c.toNat + 1 :=
  cnt_add_one_toNat (by have := timeout.isLt; omega)

/-- The next edge's inputs after an input was placed. -/
theorem State.placeInput_input (s : State) (valid : Bool) (op : BitVec 2) (arg : Byte) :
    ∃ level, (s.placeInput valid op arg).input = ⟨false, valid, op, arg, level⟩ := ⟨_, rfl⟩

end Sys2Proof.Machine
end

