-- ==== Sys2Proof/Laws/Step.lean ====
section
/-! SUPPORT. One step in normal form: what the command of an edge does, what its micro-operation does, and which of
the three kinds of edge a step is. Later proofs cite these and unfold no meaning. -/

namespace Sys2Proof.Machine

/-- What the command port does at an edge with `rst` = 0, as one expression of the pre-edge state. -/
def commandResult (s : State) : State :=
  if s.input.cmdValid = true then
    if s.input.cmdOp = 0b00#2 then
      if s.st = .idle then { s.beginEdge.respond true 0#8 with pin := s.input.cmdArg, cfg := true }
      else s.beginEdge
    else if s.input.cmdOp = 0b01#2 then
      if s.st = .idle ∧ s.cfg = true then
        { s.beginEdge.respond true 0#8 with
          oe := true, out := false, st := .reqLow, cnt := 0#15, bitidx := 0, done := false }
      else s.beginEdge
    else if s.input.cmdOp = 0b10#2 then s.beginEdge.respond true s.hum
    else s.beginEdge.respond true s.temp
  else s.beginEdge

/-- What the micro-operation of `ST` = `p` does, as one expression of the state. -/
def microResult (p : Phase) (s : State) : State :=
  match p with
  | .idle => s
  | .reqLow =>
    if s.cnt.toNat + 1 = s.params.tReqLow then
      { s with out := true, st := .reqHigh, cnt := 0#15 }
    else { s with cnt := s.cnt + 1#15 }
  | .reqHigh =>
    if s.cnt.toNat + 1 = s.params.tReqHigh then
      { s with oe := false, st := .ackLow, cnt := 0#15 }
    else { s with cnt := s.cnt + 1#15 }
  | .ackLow => s.measuring false Config.tAckLow fun _ t => t.handover .ackHigh
  | .ackHigh => s.measuring true Config.tAckHigh fun _ t => t.handover .bitLow
  | .bitLow => s.measuring false Config.tBitLow fun _ t => t.handover .bitHigh
  | .bitHigh => s.measuring true Config.tBitHigh completeBit
  | .validate =>
    if s.frame.b4 = s.frame.checksum then
      { s with hum := s.frame.b0, temp := s.frame.b2, outcome := .ok, done := true, st := .idle }
    else { s with outcome := .checksumError, done := true, st := .idle }

theorem cmdWord_getLsbD (op : BitVec 2) (arg : Byte) (i : Nat) :
    (cmdWord op arg).getLsbD i = if i < 8 then arg.getLsbD i else op.getLsbD (i - 8) := by
  unfold cmdWord
  rw [BitVec.getLsbD_append]

theorem cmdOpField_cmdWord (op : BitVec 2) (arg : Byte) : cmdOpField (cmdWord op arg) = op := by
  apply BitVec.eq_of_getLsbD_eq
  intro i hi
  rw [cmdOpField, BitVec.getLsbD_extractLsb', cmdWord_getLsbD]
  simp [hi]

theorem cmdArgField_cmdWord (op : BitVec 2) (arg : Byte) : cmdArgField (cmdWord op arg) = arg := by
  apply BitVec.eq_of_getLsbD_eq
  intro i hi
  rw [cmdArgField, BitVec.getLsbD_extractLsb', cmdWord_getLsbD]
  simp [hi]

/-- A command port with the fields `op` and `arg` presents the command that the decoder reads from the word. -/
theorem decodeCmd_cmdWord (op : BitVec 2) (arg : Byte) :
    decodeCmd (cmdWord op arg) =
      if op = 0b00#2 then .cfgPin arg else if op = 0b01#2 then .read
      else if op = 0b10#2 then .getHum else .getTemp := by
  simp only [decodeCmd, cmdOpField_cmdWord, cmdArgField_cmdWord]

theorem beginEdge_notAccepted (s : State) : s.beginEdge.notAccepted = s.beginEdge := rfl

/-- The command of an edge always answers a next state. -/
theorem runCommand_presented (s : State) : runCommand s.presented s.beginEdge = .next (commandResult s) := by
  unfold State.presented commandResult
  by_cases hv : s.input.cmdValid = true
  · rw [if_pos hv, if_pos hv, decodeCmd_cmdWord]
    by_cases h0 : s.input.cmdOp = 0b00#2
    · simp only [h0, if_true]
      by_cases hs : s.st = .idle <;>
        simp [runCommand, exec, execCfgPin, accept, hs, beginEdge_notAccepted]
    · by_cases h1 : s.input.cmdOp = 0b01#2
      · simp only [h1, if_true]
        by_cases hs : s.st = .idle <;> by_cases hc : s.cfg = true <;>
          simp [runCommand, exec, execRead, accept, hs, hc, beginEdge_notAccepted, State.lineDrive]
      · by_cases h2 : s.input.cmdOp = 0b10#2
        · simp [h2, runCommand, exec, execGetHum, accept]
        · simp [h0, h1, h2, runCommand, exec, execGetTemp, accept]
  · rw [if_neg hv, if_neg hv]
    rfl

/-- In a legal configuration the micro-operation of an edge always answers a next state. -/
theorem exec_microOp (p : Phase) {s : State} (h : legalParams s.params = true) :
    exec p.instr s = .next (microResult p s) := by
  cases p with
  | reqLow =>
    simp only [Phase.instr, exec, execReqLow, h, if_true, microResult]
    split <;> rfl
  | reqHigh =>
    simp only [Phase.instr, exec, execReqHigh, h, if_true, microResult]
    split <;> rfl
  | validate =>
    simp only [Phase.instr, exec, execValidate, microResult]
    split <;> rfl
  | _ => rfl

/-- The command never touches the configuration, the inputs, the frame, the reading, `OUTCOME` or the timer. -/
@[simp] theorem commandResult_params (s : State) : (commandResult s).params = s.params := by
  unfold commandResult; split_ifs <;> rfl
@[simp] theorem commandResult_inputs (s : State) : (commandResult s).inputs = s.inputs := by
  unfold commandResult; split_ifs <;> rfl
@[simp] theorem commandResult_edge (s : State) : (commandResult s).edge = s.edge := by
  unfold commandResult; split_ifs <;> rfl
@[simp] theorem commandResult_frame (s : State) : (commandResult s).frame = s.frame := by
  unfold commandResult; split_ifs <;> rfl
@[simp] theorem commandResult_hum (s : State) : (commandResult s).hum = s.hum := by
  unfold commandResult; split_ifs <;> rfl
@[simp] theorem commandResult_temp (s : State) : (commandResult s).temp = s.temp := by
  unfold commandResult; split_ifs <;> rfl
@[simp] theorem commandResult_outcome (s : State) : (commandResult s).outcome = s.outcome := by
  unfold commandResult; split_ifs <;> rfl
@[simp] theorem commandResult_ptres (s : State) : (commandResult s).ptres = none := by
  unfold commandResult; split_ifs <;> rfl
@[simp] theorem commandResult_timerAlone (s : State) : (commandResult s).timerAlone = s.timerAlone := by
  unfold commandResult; split_ifs <;> rfl
@[simp] theorem commandResult_input (s : State) : (commandResult s).input = s.input :=
  State.input_congr (commandResult_inputs s) (commandResult_edge s)
@[simp] theorem commandResult_lineSample (s : State) : (commandResult s).lineSample = s.lineSample := by
  simp [State.lineSample]

/-- While the block is busy a command changes no register: only the wires of the command port differ. -/
theorem commandResult_busy {s : State} (h : s.st ≠ .idle) :
    commandResult s =
      { s with
        ptres := none, accepted := (commandResult s).accepted, rdata := (commandResult s).rdata } := by
  unfold commandResult
  simp only [h, false_and, if_false]
  split_ifs <;> rfl

/-- A command that is not accepted, or none, leaves the state to the micro-operation. -/
theorem commandResult_held {s : State} (h : s.cmdReady = false) : commandResult s = s.beginEdge := by
  unfold State.cmdReady accept at h
  unfold commandResult
  split_ifs <;> simp_all

/-- The micro-operation never touches the configuration, `PIN`, `CFG`, the inputs or the command port's wires. -/
@[simp] theorem microResult_params (p : Phase) (s : State) : (microResult p s).params = s.params := by
  cases p <;> simp only [microResult, State.measuring_eq, completeBit] <;> split_ifs <;> rfl
@[simp] theorem microResult_inputs (p : Phase) (s : State) : (microResult p s).inputs = s.inputs := by
  cases p <;> simp only [microResult, State.measuring_eq, completeBit] <;> split_ifs <;> rfl
@[simp] theorem microResult_edge (p : Phase) (s : State) : (microResult p s).edge = s.edge := by
  cases p <;> simp only [microResult, State.measuring_eq, completeBit] <;> split_ifs <;> rfl
@[simp] theorem microResult_cfg (p : Phase) (s : State) : (microResult p s).cfg = s.cfg := by
  cases p <;> simp only [microResult, State.measuring_eq, completeBit] <;> split_ifs <;> rfl
@[simp] theorem microResult_pin (p : Phase) (s : State) : (microResult p s).pin = s.pin := by
  cases p <;> simp only [microResult, State.measuring_eq, completeBit] <;> split_ifs <;> rfl
@[simp] theorem microResult_accepted (p : Phase) (s : State) : (microResult p s).accepted = s.accepted := by
  cases p <;> simp only [microResult, State.measuring_eq, completeBit] <;> split_ifs <;> rfl
@[simp] theorem microResult_rdata (p : Phase) (s : State) : (microResult p s).rdata = s.rdata := by
  cases p <;> simp only [microResult, State.measuring_eq, completeBit] <;> split_ifs <;> rfl
@[simp] theorem microResult_timerAlone (p : Phase) (s : State) : (microResult p s).timerAlone = s.timerAlone := by
  cases p <;> simp only [microResult, State.measuring_eq, completeBit] <;> split_ifs <;> rfl

/-- The state after an edge of the block with `rst` = 0. -/
def blockResult (s : State) : State := (microResult s.st (commandResult s)).endEdge

/-- The state that the micro-operation of a busy edge finds: the pre-edge registers and the command port's wires. -/
def busyState (s : State) : State :=
  { s with ptres := none, accepted := (commandResult s).accepted, rdata := (commandResult s).rdata }

@[simp] theorem busyState_lineSample (s : State) : (busyState s).lineSample = s.lineSample := rfl
@[simp] theorem busyState_st (s : State) : (busyState s).st = s.st := rfl
@[simp] theorem busyState_bitidx (s : State) : (busyState s).bitidx = s.bitidx := rfl
@[simp] theorem busyState_cnt (s : State) : (busyState s).cnt = s.cnt := rfl
@[simp] theorem busyState_frame (s : State) : (busyState s).frame = s.frame := rfl
@[simp] theorem busyState_hum (s : State) : (busyState s).hum = s.hum := rfl
@[simp] theorem busyState_temp (s : State) : (busyState s).temp = s.temp := rfl
@[simp] theorem busyState_outcome (s : State) : (busyState s).outcome = s.outcome := rfl
@[simp] theorem busyState_done (s : State) : (busyState s).done = s.done := rfl
@[simp] theorem busyState_cfg (s : State) : (busyState s).cfg = s.cfg := rfl
@[simp] theorem busyState_pin (s : State) : (busyState s).pin = s.pin := rfl
@[simp] theorem busyState_oe (s : State) : (busyState s).oe = s.oe := rfl
@[simp] theorem busyState_out (s : State) : (busyState s).out = s.out := rfl
@[simp] theorem busyState_params (s : State) : (busyState s).params = s.params := rfl
@[simp] theorem busyState_inputs (s : State) : (busyState s).inputs = s.inputs := rfl
@[simp] theorem busyState_edge (s : State) : (busyState s).edge = s.edge := rfl
@[simp] theorem busyState_timerAlone (s : State) : (busyState s).timerAlone = s.timerAlone := rfl
@[simp] theorem busyState_ptres (s : State) : (busyState s).ptres = none := rfl

/-- In IDLE the edge is the command's alone (R162). -/
theorem blockResult_idle {s : State} (h : s.st = .idle) : blockResult s = (commandResult s).endEdge := by
  rw [blockResult, h, microResult]

/-- While busy the edge is the micro-operation's alone, but for the command port's wires (R73, R121). -/
theorem blockResult_busy {s : State} (h : s.st ≠ .idle) :
    blockResult s = (microResult s.st (busyState s)).endEdge := by
  rw [blockResult, commandResult_busy h]
  rfl

/-- The level and the bound of a measuring state (R95). -/
def measurement : Phase → Option (Level × Nat)
  | .ackLow => some (false, 85)
  | .ackHigh => some (true, 85)
  | .bitLow => some (false, 56)
  | .bitHigh => some (true, 75)
  | _ => none

/-- Everything that an edge of the block with `rst` = 0 can do while it is busy. -/
inductive BusyEdge (s : State) : State → Prop where
  | reqLowCount (hst : s.st = .reqLow) (hc : s.cnt.toNat + 1 ≠ s.params.tReqLow) :
      BusyEdge s { busyState s with cnt := s.cnt + 1#15 : State }.endEdge
  | reqLowEnd (hst : s.st = .reqLow) (hc : s.cnt.toNat + 1 = s.params.tReqLow) :
      BusyEdge s { busyState s with out := true, st := .reqHigh, cnt := 0#15 : State }.endEdge
  | reqHighCount (hst : s.st = .reqHigh) (hc : s.cnt.toNat + 1 ≠ s.params.tReqHigh) :
      BusyEdge s { busyState s with cnt := s.cnt + 1#15 : State }.endEdge
  | reqHighEnd (hst : s.st = .reqHigh) (hc : s.cnt.toNat + 1 = s.params.tReqHigh) :
      BusyEdge s { busyState s with oe := false, st := .ackLow, cnt := 0#15 : State }.endEdge
  | count (level : Level) (bound : Nat) (hm : measurement s.st = some (level, bound))
      (hs : s.lineSample = level) (hc : s.cnt.toNat + 1 ≤ bound) :
      BusyEdge s { busyState s with cnt := s.cnt + 1#15 : State }.endEdge
  | timeout (level : Level) (bound : Nat) (hm : measurement s.st = some (level, bound))
      (hs : s.lineSample = level) (hc : bound < s.cnt.toNat + 1) :
      BusyEdge s { busyState s with
        ptres := some .timeout, outcome := .timeoutError, done := true, st := .idle, cnt := 0#15 : State }.endEdge
  | ackLowEnd (hst : s.st = .ackLow) (hs : s.lineSample = true) :
      BusyEdge s { busyState s with ptres := some (.duration s.cnt), st := .ackHigh, cnt := 1#15 : State }.endEdge
  | ackHighEnd (hst : s.st = .ackHigh) (hs : s.lineSample = false) :
      BusyEdge s { busyState s with ptres := some (.duration s.cnt), st := .bitLow, cnt := 1#15 : State }.endEdge
  | bitLowEnd (hst : s.st = .bitLow) (hs : s.lineSample = true) :
      BusyEdge s { busyState s with ptres := some (.duration s.cnt), st := .bitHigh, cnt := 1#15 : State }.endEdge
  | nextBit (hst : s.st = .bitHigh) (hs : s.lineSample = false) (hb : s.bitidx.val + 1 < 40) :
      BusyEdge s { busyState s with
        ptres := some (.duration s.cnt), frame := s.frame.writeBit s.bitidx (decideBit s.cnt)
        bitidx := ⟨s.bitidx.val + 1, hb⟩, st := .bitLow, cnt := 1#15 : State }.endEdge
  | lastBit (hst : s.st = .bitHigh) (hs : s.lineSample = false) (hb : s.bitidx.val = 39) :
      BusyEdge s { busyState s with
        ptres := some (.duration s.cnt), frame := s.frame.writeBit s.bitidx (decideBit s.cnt)
        st := .validate, cnt := 0#15 : State }.endEdge
  | checksumRight (hst : s.st = .validate) (hf : s.frame.b4 = s.frame.checksum) :
      BusyEdge s { busyState s with
        hum := s.frame.b0, temp := s.frame.b2, outcome := .ok, done := true, st := .idle : State }.endEdge
  | checksumWrong (hst : s.st = .validate) (hf : s.frame.b4 ≠ s.frame.checksum) :
      BusyEdge s { busyState s with outcome := .checksumError, done := true, st := .idle : State }.endEdge

/-- A measuring state counts, raises Timeout, or completes. -/
theorem measuring_busyEdge {s : State} {level : Level} {timeout : Count} {complete : Count → State → State}
    (hm : measurement s.st = some (level, timeout.toNat))
    (hcomplete : s.lineSample ≠ level →
      BusyEdge s (complete s.cnt { busyState s with ptres := some (.duration s.cnt) }).endEdge) :
    BusyEdge s ((busyState s).measuring level timeout complete).endEdge := by
  by_cases hs : s.lineSample = level
  · by_cases ht : timeout.toNat < s.cnt.toNat + 1
    · rw [State.measuring_timeout (s := busyState s) complete hs ht]
      exact .timeout level _ hm hs ht
    · rw [State.measuring_count (s := busyState s) complete hs (Nat.not_lt.mp ht)]
      exact .count level _ hm hs (Nat.not_lt.mp ht)
  · rw [State.measuring_of_ne (s := busyState s) timeout complete hs]
    exact hcomplete hs

/-- The inversion of a busy edge: it is one of those above. -/
theorem blockResult_busyEdge {s : State} (h : s.st ≠ .idle) : BusyEdge s (blockResult s) := by
  rw [blockResult_busy h]
  cases hst : s.st with
  | idle => exact absurd hst h
  | reqLow =>
    by_cases hc : s.cnt.toNat + 1 = s.params.tReqLow
    · rw [show microResult .reqLow (busyState s) = _ from if_pos hc]; exact .reqLowEnd hst hc
    · rw [show microResult .reqLow (busyState s) = _ from if_neg hc]; exact .reqLowCount hst hc
  | reqHigh =>
    by_cases hc : s.cnt.toNat + 1 = s.params.tReqHigh
    · rw [show microResult .reqHigh (busyState s) = _ from if_pos hc]; exact .reqHighEnd hst hc
    · rw [show microResult .reqHigh (busyState s) = _ from if_neg hc]; exact .reqHighCount hst hc
  | ackLow => exact measuring_busyEdge (by rw [hst]; rfl) fun hs => .ackLowEnd hst (by simpa using hs)
  | ackHigh => exact measuring_busyEdge (by rw [hst]; rfl) fun hs => .ackHighEnd hst (by simpa using hs)
  | bitLow => exact measuring_busyEdge (by rw [hst]; rfl) fun hs => .bitLowEnd hst (by simpa using hs)
  | bitHigh =>
    refine measuring_busyEdge (by rw [hst]; rfl) fun hs => ?_
    by_cases hb : s.bitidx.val = 39
    · simpa [completeBit, hb] using BusyEdge.lastBit hst (by simpa using hs) hb
    · simpa [completeBit, hb] using BusyEdge.nextBit hst (by simpa using hs) (by omega)
  | validate =>
    by_cases hf : s.frame.b4 = s.frame.checksum
    · rw [show microResult .validate (busyState s) = _ from if_pos hf]; exact .checksumRight hst hf
    · rw [show microResult .validate (busyState s) = _ from if_neg hf]; exact .checksumWrong hst hf

theorem step_reset {s : State} (hp : legalParams s.params = true) (hr : s.input.rst = true) :
    step s = .next s.resetEdge := by simp [step, hp, hr]

theorem step_block {s : State} (hp : legalParams s.params = true) (hr : s.input.rst = false)
    (ha : s.timerAlone = none) : step s = .next (blockResult s) := by
  have hm : exec s.st.instr (commandResult s) = .next (microResult s.st (commandResult s)) :=
    exec_microOp s.st (by simpa using hp)
  simp [step, hp, hr, ha, blockEdge, runCommand_presented, hm, blockResult]

theorem step_timer {s : State} {w : PtWord} (hp : legalParams s.params = true) (hr : s.input.rst = false)
    (ha : s.timerAlone = some w) (hw : timeoutLegal (ptTimeoutField w) = true) :
    step s = .next (s.beginEdge.measureEdge (ptLevelField w) (ptTimeoutField w)).endEdge := by
  simp [step, hp, hr, ha, timerEdge, decodePt, hw, exec, execMeasure]

/-- The only ways a step answers a next state. -/
theorem step_next_cases {s t : State} (h : step s = .next t) :
    legalParams s.params = true ∧
      ((s.input.rst = true ∧ t = s.resetEdge) ∨
        (s.input.rst = false ∧ s.timerAlone = none ∧ t = blockResult s) ∨
        (s.input.rst = false ∧ ∃ w, s.timerAlone = some w ∧ timeoutLegal (ptTimeoutField w) = true ∧
          t = (s.beginEdge.measureEdge (ptLevelField w) (ptTimeoutField w)).endEdge)) := by
  by_cases hp : legalParams s.params = true
  · refine ⟨hp, ?_⟩
    by_cases hr : s.input.rst = true
    · rw [step_reset hp hr] at h
      exact .inl ⟨hr, (Host.Outcome.next.inj h).symm⟩
    · have hr' : s.input.rst = false := by simpa using hr
      cases ha : s.timerAlone with
      | none =>
        rw [step_block hp hr' ha] at h
        exact .inr (.inl ⟨hr', rfl, (Host.Outcome.next.inj h).symm⟩)
      | some w =>
        by_cases hw : timeoutLegal (ptTimeoutField w) = true
        · rw [step_timer hp hr' ha hw] at h
          exact .inr (.inr ⟨hr', w, rfl, hw, (Host.Outcome.next.inj h).symm⟩)
        · simp [step, hp, hr', ha, timerEdge, decodePt, hw] at h
  · simp [step, hp] at h

/-- The inputs after any step are those before it, one edge on. -/
theorem step_inputs {s t : State} (h : step s = .next t) : t.inputs = s.inputs.tail ∧ t.edge = s.edge + 1 := by
  obtain ⟨-, ⟨-, rfl⟩ | ⟨-, -, rfl⟩ | ⟨-, w, -, -, rfl⟩⟩ := step_next_cases h
  · simp
  · simp [blockResult]
  · unfold State.measureEdge
    split_ifs <;> simp

theorem runEdges_zero (s : State) : runEdges 0 s = .next s := rfl

theorem runEdges_succ (k : Nat) (s : State) : runEdges (k + 1) s = andThen (step s) (runEdges k) := rfl

/-- A run of edges is the host's run of the machine. -/
theorem runEdges_eq_run (k : Nat) (s : State) : runEdges k s = Host.Core.run Sys2Proof.core k s := by
  induction k generalizing s with
  | zero => rfl
  | succ k ih =>
    have hr : Host.Core.run Sys2Proof.core (k + 1) s =
        andThen (Sys2Proof.core.step s) (Host.Core.run Sys2Proof.core k) := by
      simp only [Host.Core.run, andThen]
      split <;> rename_i h <;> rw [h] <;> rfl
    rw [hr, runEdges_succ, funext ih]
    rfl

/-- A run of `j + k` edges is a run of `j` and then one of `k`. -/
theorem runEdges_add (j k : Nat) (s : State) : runEdges (j + k) s = andThen (runEdges j s) (runEdges k) := by
  induction j generalizing s with
  | zero => simp [runEdges_zero]
  | succ j ih =>
    rw [Nat.succ_add, runEdges_succ, runEdges_succ]
    cases step s with
    | next t => simpa using ih t
    | fault r => exact nomatch r
    | refused r => rfl

end Sys2Proof.Machine
end

