-- ==== Sys2Proof/Laws/Run.lean ====
section
/-! SUPPORT. Runs of edges: how the inputs move on, and what a premise about the inputs says after some edges. -/

namespace Sys2Proof.Machine

/-- One edge and then `k` more. -/
theorem runEdges_step {s t : State} (k : Nat) (h : step s = .next t) : runEdges (k + 1) s = runEdges k t := by
  rw [runEdges_succ, h, andThen_next]

/-- `j` edges that answer `t`, and then `k` more. -/
theorem runEdges_trans {s t : State} {j : Nat} (k : Nat) (h : runEdges j s = .next t) :
    runEdges (j + k) s = runEdges k t := by
  rw [runEdges_add, h, andThen_next]

/-- A safe run is safe at every earlier edge. -/
theorem runEdges_prefix {s t : State} {j k : Nat} (hjk : j ≤ k) (h : runEdges k s = .next t) :
    ∃ u, runEdges j s = .next u ∧ runEdges (k - j) u = .next t := by
  obtain ⟨m, rfl⟩ := Nat.exists_eq_add_of_le hjk
  rw [runEdges_add] at h
  obtain ⟨u, hu, ht⟩ := andThen_eq_next h
  exact ⟨u, hu, by simpa using ht⟩

/-- After one edge the inputs are the ones that came after it. -/
theorem step_inputAt {s t : State} (h : step s = .next t) (j : Nat) : t.inputAt j = s.inputAt (j + 1) :=
  State.inputAt_succ (step_inputs h).1 (step_inputs h).2 j

/-- After `k` edges the inputs are the ones that came after them. -/
theorem runEdges_inputAt {k : Nat} {s t : State} (h : runEdges k s = .next t) (j : Nat) :
    t.inputAt j = s.inputAt (k + j) := by
  induction k generalizing s with
  | zero =>
    cases h
    rw [Nat.zero_add]
  | succ k ih =>
    obtain ⟨u, hu, ht⟩ := andThen_eq_next (show andThen (step s) (runEdges k) = .next t from h)
    rw [ih ht, step_inputAt hu, Nat.add_right_comm]

theorem NoReset.mono {j k : Nat} {s : State} (h : NoReset k s) (hjk : j ≤ k) : NoReset j s :=
  fun i hi => h i (Nat.lt_of_lt_of_le hi hjk)

/-- A premise about the resets of `k + n` edges is one about the last `n` after `k` edges. -/
theorem NoReset.after {k n : Nat} {s t : State} (h : NoReset (k + n) s) (hr : runEdges k s = .next t) :
    NoReset n t := fun j hj => by
  rw [runEdges_inputAt hr]
  exact h _ (Nat.add_lt_add_left hj k)

/-- A premise about the samples is one about the same samples after some of the edges. -/
theorem SamplesFrom.after {k n : Nat} {s t : State} {ls : List Level} (h : SamplesFrom s (k + n) ls)
    (hr : runEdges k s = .next t) : SamplesFrom t n ls := fun j hj => by
  rw [runEdges_inputAt hr, ← Nat.add_assoc]
  exact h j hj

/-- A premise about a list of samples is one about its two parts. -/
theorem SamplesFrom.split {k : Nat} {s : State} {ls ms : List Level} (h : SamplesFrom s k (ls ++ ms)) :
    SamplesFrom s k ls ∧ SamplesFrom s (k + ls.length) ms := by
  refine ⟨fun j hj => ?_, fun j hj => ?_⟩
  · rw [h j (by rw [List.length_append]; omega), List.getElem_append_left hj]
  · rw [Nat.add_assoc, h (ls.length + j) (by rw [List.length_append]; omega),
      List.getElem_append_right (Nat.le_add_right _ _)]
    simp

/-- The first of the coming samples. -/
theorem SamplesFrom.head {s : State} {l : Level} {ls : List Level} (h : SamplesFrom s 0 (l :: ls)) :
    s.lineSample = l := h 0 (Nat.zero_lt_succ _)

/-- The samples after the first edge. -/
theorem SamplesFrom.tail {s t : State} {l : Level} {ls : List Level} (h : SamplesFrom s 0 (l :: ls))
    (hs : step s = .next t) : SamplesFrom t 0 ls := fun j hj => by
  have := h (j + 1) (Nat.succ_lt_succ hj)
  rw [Nat.zero_add] at this ⊢
  rw [step_inputAt hs, this]
  rfl

end Sys2Proof.Machine
end

