-- ==== Sys2Proof/Laws/Attempt.lean ====
section
/-! SUPPORT. The pieces a read attempt is made of: waiting in a state while only `CNT` moves, the 82 runs of the receive
phase, and the edges that end a run. -/

namespace Sys2Proof.Machine

/-- A state without the fields that move at every edge of a wait: `CNT`, the inputs, the edge count, the wires. -/
def State.still (s : State) : State :=
  { s with cnt := 0#15, inputs := [], edge := 0, accepted := false, rdata := 0#8, ptres := none }

section
variable {s t : State}

theorem State.still_st (h : s.still = t.still) : s.st = t.st := (congrArg State.st h :)
theorem State.still_bitidx (h : s.still = t.still) : s.bitidx = t.bitidx := (congrArg State.bitidx h :)
theorem State.still_frame (h : s.still = t.still) : s.frame = t.frame := (congrArg State.frame h :)
theorem State.still_hum (h : s.still = t.still) : s.hum = t.hum := (congrArg State.hum h :)
theorem State.still_temp (h : s.still = t.still) : s.temp = t.temp := (congrArg State.temp h :)
theorem State.still_outcome (h : s.still = t.still) : s.outcome = t.outcome := (congrArg State.outcome h :)
theorem State.still_done (h : s.still = t.still) : s.done = t.done := (congrArg State.done h :)
theorem State.still_oe (h : s.still = t.still) : s.oe = t.oe := (congrArg State.oe h :)
theorem State.still_out (h : s.still = t.still) : s.out = t.out := (congrArg State.out h :)
theorem State.still_params (h : s.still = t.still) : s.params = t.params := (congrArg State.params h :)
theorem State.still_timerAlone (h : s.still = t.still) : s.timerAlone = t.timerAlone :=
  (congrArg State.timerAlone h :)

end

/-- If each of the first `n` edges only counts, so do `k` of them. -/
theorem wait {s : State} (n : Nat)
    (hstep : ∀ k < n, ∀ u, runEdges k s = .next u → u.still = s.still → u.cnt.toNat = s.cnt.toNat + k →
      ∃ v, step u = .next v ∧ v.still = u.still ∧ v.cnt.toNat = u.cnt.toNat + 1) :
    ∀ k ≤ n, ∃ t, runEdges k s = .next t ∧ t.still = s.still ∧ t.cnt.toNat = s.cnt.toNat + k := by
  intro k
  induction k with
  | zero => exact fun _ => ⟨s, rfl, rfl, rfl⟩
  | succ k ih =>
    intro hk
    obtain ⟨u, hu, hc, hn⟩ := ih (by omega)
    obtain ⟨v, hv, hvc, hvn⟩ := hstep k (by omega) u hu hc hn
    exact ⟨v, by rw [runEdges_trans 1 hu, runEdges_step 0 hv, runEdges_zero], hvc.trans hc, by omega⟩

/-- The reset of the edge after a run of `k`. -/
theorem NoReset.at {k n : Nat} {s u : State} (hr : NoReset n s) (hk : k < n) (hu : runEdges k s = .next u) :
    u.input.rst = false := by
  have := hr k hk
  rwa [← State.inputAt_zero, runEdges_inputAt hu]

/-- The sample of the edge after a run of `k`. -/
theorem lineSample_after {k : Nat} {s u : State} (hu : runEdges k s = .next u) :
    u.lineSample = (s.inputAt k).lineIn := by
  rw [State.lineSample, ← State.inputAt_zero, runEdges_inputAt hu]
  rfl

/-- A state of the block in a legal configuration. -/
structure Running (s : State) : Prop where
  params : legalParams s.params = true
  inBlock : s.timerAlone = none

theorem Running.of_still {s t : State} (h : Running s) (e : t.still = s.still) : Running t :=
  ⟨by rw [State.still_params e]; exact h.params, by rw [State.still_timerAlone e]; exact h.inBlock⟩

/-- One counting edge of a measuring state. -/
theorem measuring_step {s : State} {level : Level} {bound : Nat} (h : Running s) (hr : s.input.rst = false)
    (hm : measurement s.st = some (level, bound)) (hs : s.lineSample = level) (hc : s.cnt.toNat + 1 ≤ bound)
    (hb : bound ≤ 85) : ∃ v, step s = .next v ∧ v.still = s.still ∧ v.cnt.toNat = s.cnt.toNat + 1 := by
  have hst : s.st ≠ .idle := fun e => by rw [e] at hm; simp [measurement] at hm
  refine ⟨_, step_block h.params hr h.inBlock, ?_⟩
  generalize he : blockResult s = v
  have hedge := blockResult_busyEdge hst
  rw [he] at hedge
  have hcnt : ∀ n : Nat, n ≤ 85 → s.cnt.toNat + 1 ≤ n → (s.cnt + 1#15).toNat = s.cnt.toNat + 1 := fun n h1 h2 =>
    cnt_add_one_toNat (by omega)
  cases hedge with
  | count l b hm' hs' hc' => exact ⟨rfl, hcnt bound hb hc⟩
  | timeout l b hm' hs' hc' =>
    rw [hm] at hm'
    obtain ⟨rfl, rfl⟩ := Prod.mk.inj (Option.some.inj hm')
    omega
  | reqLowCount hst' => rw [hst'] at hm; simp [measurement] at hm
  | reqLowEnd hst' => rw [hst'] at hm; simp [measurement] at hm
  | reqHighCount hst' => rw [hst'] at hm; simp [measurement] at hm
  | reqHighEnd hst' => rw [hst'] at hm; simp [measurement] at hm
  | checksumRight hst' => rw [hst'] at hm; simp [measurement] at hm
  | checksumWrong hst' => rw [hst'] at hm; simp [measurement] at hm
  | ackLowEnd hst' hs' => simp_all [measurement]
  | ackHighEnd hst' hs' => simp_all [measurement]
  | bitLowEnd hst' hs' => simp_all [measurement]
  | nextBit hst' hs' => simp_all [measurement]
  | lastBit hst' hs' => simp_all [measurement]

/-- The state that measures run `j` of the receive phase. -/
def runPhase (j : Nat) : Phase :=
  if j = 0 then .ackLow else if j = 1 then .ackHigh else if j % 2 = 0 then .bitLow else .bitHigh

/-- How many samples of run `j` are counted when its measurement starts: by handover one, but none in run 0 (R148). -/
def runStart (j : Nat) : Nat := if j = 0 then 0 else 1

theorem measurement_runPhase (j : Nat) : measurement (runPhase j) = some (runLevel j, runBound j) := by
  unfold runPhase runLevel runBound
  by_cases h0 : j = 0
  · simp [h0, measurement]
  · by_cases h1 : j = 1
    · simp [h1, measurement]
    · by_cases h2 : j % 2 = 0
      · simp [h0, h1, h2, measurement, show ¬ j < 2 by omega]
      · simp [h0, h1, measurement, show ¬ j < 2 by omega, show j % 2 = 1 by omega]

theorem runBound_le (j : Nat) : runBound j ≤ 85 := by unfold runBound; split_ifs <;> omega

theorem runStart_lt_runBound (j : Nat) : runStart j < runBound j := by
  unfold runStart runBound; split_ifs <;> omega

theorem runPhase_ne_idle (j : Nat) : runPhase j ≠ .idle := by unfold runPhase; split_ifs <;> simp

/-- At the start of the measurement of run `j`. -/
structure InRun (j : Nat) (s : State) : Prop extends Running s where
  le : j ≤ 81
  st : s.st = runPhase j
  cnt : s.cnt.toNat = runStart j
  bitidx : s.bitidx.val = (j - 2) / 2
  done : s.done = false

/-- While the samples match and the bound is not passed, only `CNT` moves. -/
theorem InRun.count {j n : Nat} {s : State} (h : InRun j s) (hr : NoReset n s)
    (hs : ∀ k < n, (s.inputAt k).lineIn = runLevel j) (hn : runStart j + n ≤ runBound j) :
    ∀ k ≤ n, ∃ t, runEdges k s = .next t ∧ t.still = s.still ∧ t.cnt.toNat = runStart j + k := by
  have := wait (s := s) n fun k hk u hu hc hcnt =>
    measuring_step (h.toRunning.of_still hc) (hr.at hk hu)
      (by rw [State.still_st hc, h.st]; exact measurement_runPhase j)
      (by rw [lineSample_after hu]; exact hs k hk) (by rw [hcnt, h.cnt]; omega) (runBound_le j)
  rw [h.cnt] at this
  exact this

/-- What the edge that ends run `j` with `d` matching samples does to the frame: a bit for each odd run from the third
on (R176). -/
def frameAfterRun (j d : Nat) (s : State) : Frame :=
  if 2 ≤ j ∧ j % 2 = 1 then s.frame.writeBit s.bitidx (decide (40 < d)) else s.frame

theorem decideBit_eq {c : Count} {d : Nat} (h : c.toNat = d) : decideBit c = decide (40 < d) := by
  rw [decideBit, h]
  rfl

/-- An edge of a measuring state whose sample differs runs the state's completion. -/
theorem blockResult_of_ne {t : State} {p : Phase} {level : Level} {timeout : Count}
    {complete : Count → State → State} (hst : t.st = p) (hp : p ≠ .idle)
    (hm : microResult p (busyState t) = (busyState t).measuring level timeout complete)
    (hs : t.lineSample ≠ level) :
    blockResult t = (complete t.cnt { busyState t with ptres := some (.duration t.cnt) }).endEdge := by
  rw [blockResult_busy (by rw [hst]; exact hp), hst, hm]
  exact congrArg State.endEdge (State.measuring_of_ne (s := busyState t) timeout complete hs)

theorem runLevel_ne (j : Nat) : runLevel (j + 1) ≠ runLevel j := by
  unfold runLevel
  simp only [ne_eq, decide_eq_decide]
  omega

/-- The edge whose sample ends run `j`, not the last one: the measurement of run `j + 1` starts. -/
theorem InRun.next {j d : Nat} {s t : State} (h : InRun j s) (hj : j < 81) (hc : t.still = s.still)
    (hd : t.cnt.toNat = d) (hr : t.input.rst = false) (hs : t.lineSample = runLevel (j + 1)) :
    ∃ v, step t = .next v ∧ InRun (j + 1) v ∧ v.hum = s.hum ∧ v.temp = s.temp ∧
      v.frame = frameAfterRun j d s := by
  have hrun := h.toRunning.of_still hc
  have hst : t.st = runPhase j := by rw [State.still_st hc, h.st]
  have hbit : t.bitidx.val = (j - 2) / 2 := by rw [State.still_bitidx hc, h.bitidx]
  have hdone : t.done = false := by rw [State.still_done hc, h.done]
  have hne : t.lineSample ≠ runLevel j := hs ▸ runLevel_ne j
  have hum := State.still_hum hc
  have htemp := State.still_temp hc
  have hframe := State.still_frame hc
  refine ⟨_, step_block hrun.params hr hrun.inBlock, ?_⟩
  unfold frameAfterRun
  by_cases h0 : j = 0
  · subst h0
    rw [blockResult_of_ne (p := .ackLow) (level := false) (timeout := Config.tAckLow)
      (complete := fun _ t => t.handover .ackHigh) hst (by simp) rfl hne]
    exact ⟨⟨⟨hrun.params, by simp [hrun.inBlock]⟩, by omega, rfl, rfl, hbit, hdone⟩, hum, htemp,
      hframe⟩
  · by_cases h1 : j = 1
    · subst h1
      rw [blockResult_of_ne (p := .ackHigh) (level := true) (timeout := Config.tAckHigh)
        (complete := fun _ t => t.handover .bitLow) hst (by simp) rfl hne]
      exact ⟨⟨⟨hrun.params, by simp [hrun.inBlock]⟩, by omega, rfl, rfl, hbit, hdone⟩, hum, htemp,
        hframe⟩
    · by_cases h2 : j % 2 = 0
      · have hp : runPhase j = .bitLow := by simp [runPhase, h0, h1, h2]
        have hl : runLevel j = false := by simp [runLevel, h2]
        rw [hp] at hst
        rw [hl] at hne
        rw [blockResult_of_ne (timeout := Config.tBitLow) (complete := fun _ t => t.handover .bitHigh) hst (by simp)
          rfl hne, if_neg (by omega)]
        refine ⟨⟨⟨hrun.params, by simp [hrun.inBlock]⟩, by omega, ?_, ?_, ?_, hdone⟩, hum, htemp,
          hframe⟩
        · simp [runPhase, h0, State.handover, show (j + 1) % 2 = 1 by omega]
        · simp [runStart, State.handover]
        · rw [show (j + 1 - 2) / 2 = (j - 2) / 2 by omega, ← hbit]
          rfl
      · have hp : runPhase j = .bitHigh := by simp [runPhase, h0, h1, h2]
        have hl : runLevel j = true := by simp [runLevel, show j % 2 = 1 by omega]
        rw [hp] at hst
        rw [hl] at hne
        have hb : (busyState t).bitidx.val ≠ 39 := by rw [busyState_bitidx, hbit]; omega
        rw [blockResult_of_ne hst (by simp) rfl hne, completeBit, dif_neg hb, if_pos (by omega)]
        refine ⟨⟨⟨hrun.params, by simp [hrun.inBlock]⟩, by omega, ?_, ?_, ?_, hdone⟩, hum, htemp, ?_⟩
        · simp [runPhase, h0, show (j + 1) % 2 = 0 by omega]
        · simp [runStart]
        · show t.bitidx.val + 1 = _
          rw [hbit]
          omega
        · show t.frame.writeBit t.bitidx (decideBit t.cnt) = _
          rw [decideBit_eq hd, State.still_frame hc, State.still_bitidx hc]

/-- The edge whose sample ends the last run: VALIDATE is next (R176). -/
theorem InRun.last {d : Nat} {s t : State} (h : InRun 81 s) (hc : t.still = s.still) (hd : t.cnt.toNat = d)
    (hr : t.input.rst = false) (hs : t.lineSample = false) :
    ∃ v, step t = .next v ∧ Running v ∧ v.st = .validate ∧ v.done = false ∧ v.hum = s.hum ∧ v.temp = s.temp ∧
      v.frame = frameAfterRun 81 d s := by
  have hrun := h.toRunning.of_still hc
  have hst : t.st = .bitHigh := by rw [State.still_st hc, h.st]; rfl
  have hbit : t.bitidx.val = 39 := by rw [State.still_bitidx hc, h.bitidx]
  have hum := State.still_hum hc
  have htemp := State.still_temp hc
  have hdone : t.done = false := by rw [State.still_done hc, h.done]
  refine ⟨_, step_block hrun.params hr hrun.inBlock, ?_⟩
  rw [blockResult_of_ne (level := true) hst (by simp) rfl (by simp [hs]), completeBit,
    dif_pos (show (busyState t).bitidx.val = 39 from hbit)]
  refine ⟨⟨hrun.params, by simp [hrun.inBlock]⟩, rfl, hdone, hum, htemp, ?_⟩
  show t.frame.writeBit t.bitidx (decideBit t.cnt) = _
  rw [decideBit_eq hd, State.still_frame hc, State.still_bitidx hc]
  rfl

/-- The edge whose sample is one too many for run `j`: the attempt ends with Timeout (R211). -/
theorem InRun.timeout {j : Nat} {s t : State} (h : InRun j s) (hc : t.still = s.still)
    (hd : t.cnt.toNat = runBound j) (hr : t.input.rst = false) (hs : t.lineSample = runLevel j) :
    ∃ v, step t = .next v ∧ v.done = true ∧ v.st = .idle ∧ v.outcome = .timeoutError ∧ v.cnt = 0#15 ∧
      v.hum = s.hum ∧ v.temp = s.temp := by
  have hrun := h.toRunning.of_still hc
  have hst : t.st = runPhase j := by rw [State.still_st hc, h.st]
  have hm := measurement_runPhase j
  rw [← hst] at hm
  refine ⟨_, step_block hrun.params hr hrun.inBlock, ?_⟩
  have hedge := blockResult_busyEdge (s := t) (by rw [hst]; exact runPhase_ne_idle j)
  rw [← State.still_hum hc, ← State.still_temp hc]
  have hne : ∀ l, l = !runLevel j → t.lineSample = l → False := by
    rintro _ rfl h'
    rw [hs] at h'
    simp at h'
  generalize blockResult t = v at hedge
  cases hedge with
  | timeout l b hm' hs' hc' => exact ⟨rfl, rfl, rfl, rfl, rfl, rfl⟩
  | count l b hm' hs' hc' =>
    rw [hm] at hm'
    obtain ⟨rfl, rfl⟩ := Prod.mk.inj (Option.some.inj hm')
    omega
  | reqLowCount hst' => rw [hst'] at hm; simp [measurement] at hm
  | reqLowEnd hst' => rw [hst'] at hm; simp [measurement] at hm
  | reqHighCount hst' => rw [hst'] at hm; simp [measurement] at hm
  | reqHighEnd hst' => rw [hst'] at hm; simp [measurement] at hm
  | checksumRight hst' => rw [hst'] at hm; simp [measurement] at hm
  | checksumWrong hst' => rw [hst'] at hm; simp [measurement] at hm
  | ackLowEnd hst' hs' | ackHighEnd hst' hs' | bitLowEnd hst' hs' | nextBit hst' hs' | lastBit hst' hs' =>
    rw [hst'] at hm
    refine (hne _ ?_ hs').elim
    have := (Prod.mk.inj (Option.some.inj hm)).1
    simp [← this]

end Sys2Proof.Machine
end

