-- ==== Sys2Proof/Laws/Decode.lean ====
section
/-! SUPPORT. The fields of a request word that was put together from its operands (R93). -/

namespace Sys2Proof

theorem ptWord_getLsbD (level : Level) (timeout : Count) (i : Nat) :
    (ptWord level timeout).getLsbD i =
      if i < 15 then timeout.getLsbD i else (BitVec.ofBool level).getLsbD (i - 15) := by
  unfold ptWord
  rw [BitVec.getLsbD_append]

@[simp] theorem ptLevelField_ptWord (level : Level) (timeout : Count) :
    ptLevelField (ptWord level timeout) = level := by
  rw [ptLevelField, ptWord_getLsbD]
  simp

@[simp] theorem ptTimeoutField_ptWord (level : Level) (timeout : Count) :
    ptTimeoutField (ptWord level timeout) = timeout := by
  apply BitVec.eq_of_getLsbD_eq
  intro i hi
  rw [ptTimeoutField, BitVec.getLsbD_extractLsb', ptWord_getLsbD]
  simp [hi]

end Sys2Proof
end

