-- ==== Sys2Proof/Laws/Frame.lean ====
section
/-! SUPPORT. The frame buffer: a write of one bit reads back and leaves every other bit alone. -/

namespace Sys2Proof.Machine

@[simp] theorem Frame.byte_setByte_same (f : Frame) (i : Fin 5) (v : Byte) : (f.setByte i v).byte i = v := by
  fin_cases i <;> rfl

theorem Frame.byte_setByte_ne (f : Frame) {i j : Fin 5} (v : Byte) (h : j ≠ i) :
    (f.setByte i v).byte j = f.byte j := by
  fin_cases i <;> fin_cases j <;> first | rfl | exact absurd rfl h

theorem bitPos_lt (n : Fin 40) : bitPos n < 8 := by unfold bitPos; omega

/-- Bit `q` of a byte in which bit `p` was replaced. -/
theorem setBit_getLsbD (v : Byte) {p q : Nat} (hp : p < 8) (hq : q < 8) (b : Bool) :
    (setBit v p b).getLsbD q = if q = p then b else v.getLsbD q := by
  unfold setBit
  interval_cases p <;> interval_cases q <;> cases b <;> simp

/-- A data bit is identified by its byte and its bit position (R64). -/
theorem bit_place_injective {m n : Fin 40} (hi : byteIndex m = byteIndex n) (hp : bitPos m = bitPos n) : m = n := by
  have h1 : m.val / 8 = n.val / 8 := congrArg Fin.val hi
  unfold bitPos at hp
  exact Fin.ext (by omega)

@[simp] theorem Frame.bit_writeBit_same (f : Frame) (n : Fin 40) (b : Bool) : (f.writeBit n b).bit n = b := by
  simp [Frame.bit, Frame.writeBit, setBit_getLsbD _ (bitPos_lt n) (bitPos_lt n)]

theorem Frame.bit_writeBit_ne (f : Frame) {m n : Fin 40} (b : Bool) (h : m ≠ n) :
    (f.writeBit n b).bit m = f.bit m := by
  unfold Frame.bit Frame.writeBit
  by_cases hi : byteIndex m = byteIndex n
  · have hp : bitPos m ≠ bitPos n := fun hp => h (bit_place_injective hi hp)
    rw [hi, Frame.byte_setByte_same, setBit_getLsbD _ (bitPos_lt n) (bitPos_lt m), if_neg hp]
  · rw [Frame.byte_setByte_ne _ _ hi]

/-- Every bit of every frame byte is one of the 40 data bits (R64). -/
theorem Frame.byte_getLsbD_eq_bit (f : Frame) (i : Fin 5) {p : Nat} (hp : p < 8) :
    (f.byte i).getLsbD p = f.bit ⟨8 * i.val + (7 - p), by omega⟩ := by
  have h1 : byteIndex ⟨8 * i.val + (7 - p), by omega⟩ = i := Fin.ext (by simp [byteIndex]; omega)
  have h2 : bitPos ⟨8 * i.val + (7 - p), by omega⟩ = p := by simp [bitPos]; omega
  rw [Frame.bit, h1, h2]

/-- Two frames with the same 40 data bits are equal. -/
theorem Frame.ext_bit {f g : Frame} (h : ∀ n, f.bit n = g.bit n) : f = g := by
  have hb : ∀ i, f.byte i = g.byte i := fun i =>
    BitVec.eq_of_getLsbD_eq fun p hp => by
      rw [Frame.byte_getLsbD_eq_bit f i hp, Frame.byte_getLsbD_eq_bit g i hp, h]
  cases f with
  | mk a0 a1 a2 a3 a4 =>
    cases g with
    | mk c0 c1 c2 c3 c4 =>
      simp only [Frame.mk.injEq]
      exact ⟨hb 0, hb 1, hb 2, hb 3, hb 4⟩

end Sys2Proof.Machine
end

