-- ==== Sys2Proof/Laws/Independence.lean ====
section
/-! SUPPORT. What the two operations of an edge do not look at: the command port and the later inputs, the frame bits
outside BIT_HIGH and VALIDATE, the sample outside the measuring states. -/

namespace Sys2Proof.Machine

/-- The micro-operation does not look at the command port, nor at the inputs beyond this edge's sample. -/
theorem microResult_wires (p : Phase) (s : State) (i : List EdgeInput) (a : Bool) (r : Byte)
    (h : ({ s with inputs := i, accepted := a, rdata := r } : State).lineSample = s.lineSample) :
    microResult p { s with inputs := i, accepted := a, rdata := r } =
      { microResult p s with inputs := i, accepted := a, rdata := r } := by
  cases p <;> simp only [microResult, State.measuring_eq, completeBit, h] <;> split_ifs <;> rfl

/-- Outside the measuring states the micro-operation does not look at the inputs at all (R39). -/
theorem microResult_inputs_of_ptreq_none {p : Phase} (hp : p.ptreq = none) (s : State) (i : List EdgeInput) :
    microResult p { s with inputs := i } = { microResult p s with inputs := i } := by
  cases p <;> simp only [Phase.ptreq, reduceCtorEq] at hp <;> simp only [microResult] <;> split_ifs <;> rfl

/-- The command of an edge does not look at the frame (R20). -/
theorem commandResult_withFrame (s : State) (f : Frame) :
    commandResult { s with frame := f } = { commandResult s with frame := f } := by
  unfold commandResult
  rw [show ({ s with frame := f } : State).input = s.input from rfl]
  simp only
  split_ifs <;> rfl

/-- No micro-operation but BIT_HIGH and VALIDATE looks at the frame (R63). -/
theorem microResult_withFrame {p : Phase} (s : State) (f : Frame) (hb : p ≠ .bitHigh) (hv : p ≠ .validate) :
    microResult p { s with frame := f } = { microResult p s with frame := f } := by
  have hl : ({ s with frame := f } : State).lineSample = s.lineSample := rfl
  cases p with
  | bitHigh => exact absurd rfl hb
  | validate => exact absurd rfl hv
  | _ => simp only [microResult, State.measuring_eq, hl] <;> split_ifs <;> rfl

end Sys2Proof.Machine
end

