-- ==== Sys2Proof/Laws/PerInstr.lean ====
section
/-! SUPPORT. Facts about every instruction as syntax, one lemma per constructor. -/

namespace Sys2Proof.Laws.TableRow

/-- How many bits a word of each port has (R90, R93, R95). -/
def width : Encoded → Nat
  | .cmd _ => 10
  | .pt _ => 16
  | .seq _ => 3

/-- The word as a number. -/
def value : Encoded → Nat
  | .cmd w => w.toNat
  | .pt w => w.toNat
  | .seq w => w.toNat

/-- The instruction's row in spec/opcode_table.json: its width, its match and its mask (R100). -/
def row : Instr → Nat × Nat × Nat
  | .cfgPin _ => (10, 0x000, 0x300)
  | .read => (10, 0x100, 0x300)
  | .getHum => (10, 0x200, 0x300)
  | .getTemp => (10, 0x300, 0x300)
  | .measure _ _ => (16, 0, 0)
  | .idle => (3, 0, 7)
  | .reqLow => (3, 1, 7)
  | .reqHigh => (3, 2, 7)
  | .ackLow => (3, 3, 7)
  | .ackHigh => (3, 4, 7)
  | .bitLow => (3, 5, 7)
  | .bitHigh => (3, 6, 7)
  | .validate => (3, 7, 7)

/-- The instruction's encoding has its row's width and its row's fixed bits. -/
def Statement (i : Instr) : Prop :=
  width (encode i) = (row i).1 ∧ value (encode i) &&& (row i).2.2 = (row i).2.1

theorem cfgPin (n : Byte) : Statement (.cfgPin n) := by
  refine ⟨rfl, ?_⟩
  revert n
  decide
theorem read : Statement .read := ⟨rfl, rfl⟩
theorem getHum : Statement .getHum := ⟨rfl, rfl⟩
theorem getTemp : Statement .getTemp := ⟨rfl, rfl⟩
theorem measure (level : Level) (timeout : Count) : Statement (.measure level timeout) :=
  ⟨rfl, Nat.and_zero _⟩
theorem idle : Statement .idle := ⟨rfl, rfl⟩
theorem reqLow : Statement .reqLow := ⟨rfl, rfl⟩
theorem reqHigh : Statement .reqHigh := ⟨rfl, rfl⟩
theorem ackLow : Statement .ackLow := ⟨rfl, rfl⟩
theorem ackHigh : Statement .ackHigh := ⟨rfl, rfl⟩
theorem bitLow : Statement .bitLow := ⟨rfl, rfl⟩
theorem bitHigh : Statement .bitHigh := ⟨rfl, rfl⟩
theorem validate : Statement .validate := ⟨rfl, rfl⟩

end Sys2Proof.Laws.TableRow
end

