-- ==== Sys2Proof/Tests/Slice0.lean ====
section
/-! SUPPORT. Small tests: the WellFormed smoke, words written out from the spec's encodings, single steps from the vectors
of `95_test_vectors.md` (V<n>) and the examples of the rules, and for every statement with hypotheses a state that meets
them. -/

namespace Sys2Proof.Tests

open Sys2Proof Sys2Proof.Machine

/-! ### WellFormed -/

/-- R98: 32767 is no timeout operand. -/
theorem test_wf_refuses_timeout_32767 :
    (Instr.measure false 32767#15).wf = false ∧ (Instr.measure true 32767#15).wf = false := by decide

/-- R98: 32766 and 0 are. -/
theorem test_wf_accepts_timeout_bounds :
    (Instr.measure false 32766#15).wf = true ∧ (Instr.measure true 0#15).wf = true := by decide

/-! ### Decoding: words written out bit by bit from R91, R93, R95 -/

theorem test_decode_cfgPin : decode (.cmd 0b00_11111111#10) = .ok (.cfgPin 255#8) := rfl
theorem test_decode_read : decode (.cmd 0b01_10100101#10) = .ok .read := rfl
theorem test_decode_getHum : decode (.cmd 0b10_11111111#10) = .ok .getHum := rfl
theorem test_decode_getTemp : decode (.cmd 0b11_00000000#10) = .ok .getTemp := rfl
theorem test_decode_measure_low : decode (.pt 0b0_000000000111000#16) = .ok (.measure false 56#15) := rfl
theorem test_decode_measure_high : decode (.pt 0b1_000000001001011#16) = .ok (.measure true 75#15) := rfl
theorem test_decode_idle : decode (.seq 0b000#3) = .ok .idle := rfl
theorem test_decode_reqLow : decode (.seq 0b001#3) = .ok .reqLow := rfl
theorem test_decode_reqHigh : decode (.seq 0b010#3) = .ok .reqHigh := rfl
theorem test_decode_ackLow : decode (.seq 0b011#3) = .ok .ackLow := rfl
theorem test_decode_ackHigh : decode (.seq 0b100#3) = .ok .ackHigh := rfl
theorem test_decode_bitLow : decode (.seq 0b101#3) = .ok .bitLow := rfl
theorem test_decode_bitHigh : decode (.seq 0b110#3) = .ok .bitHigh := rfl
theorem test_decode_validate : decode (.seq 0b111#3) = .ok .validate := rfl

/-! ### Helpers -/

/-- An edge with no reset and no command, and the given sample. -/
def sample (l : Level) : EdgeInput := ⟨false, false, 0#2, 0#8, l⟩

/-- An edge with no reset, a command word and a low sample. -/
def command (w : CmdWord) : EdgeInput := ⟨false, true, cmdOpField w, cmdArgField w, false⟩

/-- An edge with `rst` = 1 and CFGPIN 4 presented. -/
def resetInput : EdgeInput := ⟨true, true, 0#2, 4#8, true⟩

/-- The reset state with a pin configured. -/
def base : State := { State.reset with cfg := true, pin := 4#8 }

/-- In state `p` of an attempt, with count `c`; the next edge's input is `i`. -/
def inPhase (p : Phase) (c : Count) (i : EdgeInput) : State :=
  { base with
    st := p, cnt := c, oe := decide (p = .reqLow ∨ p = .reqHigh), out := decide (p ≠ .reqLow), inputs := [i] }

/-- Just after the edge that accepted a READ, with the given samples to come and nothing presented. -/
def attempt (ls : List Level) : State := { inPhase .reqLow 0#15 (sample false) with inputs := ls.map sample }

/-- The timer alone on a request word, with the given samples to come. -/
def alone (w : PtWord) (ls : List Level) : State :=
  { base with timerAlone := some w, inputs := ls.map sample }

/-- A field of the next state, if a step answers one. -/
def after {α : Type} (f : State → α) (s : State) : Option α :=
  match step s with
  | .next t => some (f t)
  | .fault _ => none
  | .refused _ => none

/-! ### Single steps -/

/-- V2. -/
theorem test_cfgPin_accepted :
    after (fun t => (t.cfg, t.pin, t.accepted)) { State.reset with inputs := [command 0x004#10] } =
      some (true, 4#8, true) := by decide

/-- V8. -/
theorem test_cfgPin_held_in_bitHigh :
    after (fun t => (t.pin, t.accepted, t.st)) (inPhase .bitHigh 3#15 { command 0x009#10 with lineIn := true }) =
      some (4#8, false, .bitHigh) := by decide

/-- V5, V6. -/
theorem test_read_accepted :
    after (fun t => (t.st, t.oe, t.out, t.cnt, t.bitidx, t.done, t.outcome))
        { base with done := true, outcome := .timeoutError, inputs := [command 0x1A5#10] } =
      some (.reqLow, true, false, 0#15, 0, false, .timeoutError) := rfl

/-- V1. -/
theorem test_read_held_without_pin :
    after (fun t => (t.st, t.oe, t.accepted)) { State.reset with inputs := [command 0x100#10] } =
      some (.idle, false, false) := by decide

/-- V11: the value before the VALIDATE edge. -/
theorem test_getHum_at_validate :
    after (fun t => (t.rdata, t.hum))
        { inPhase .validate 0#15 (command 0x200#10) with frame := ⟨200#8, 100#8, 50#8, 10#8, 104#8⟩ } =
      some (0#8, 200#8) := by decide

/-- V12. -/
theorem test_getHum_ignores_arg :
    after (fun t => (t.rdata, t.accepted)) { base with hum := 200#8, inputs := [command 0x2FF#10] } =
      some (200#8, true) := by decide

/-- Program 4, edge 21878. -/
theorem test_getTemp :
    after (fun t => t.rdata) { base with hum := 200#8, temp := 50#8, inputs := [command 0x300#10] } =
      some 50#8 := by decide

/-- R152: MEASURE(0, 1) on `L*1`. -/
theorem test_measure_duration_zero :
    after (fun t => (t.ptres, t.timerAlone)) (alone 0x8000#16 [false]) = some (some (.duration 0#15), none) := by decide

/-- R152: MEASURE(0, 1) on `H*1`. -/
theorem test_measure_timeout_zero :
    after (fun t => t.ptres) (alone 0x8000#16 [true]) = some (some .timeout) := by decide

/-- R162. -/
theorem test_idle_ignores_sample :
    after (fun t => (t.st, t.cnt, t.oe)) { base with inputs := [sample true] } = some (.idle, 0#15, false) := by decide

/-- V65. -/
theorem test_reqLow_end :
    after (fun t => (t.st, t.oe, t.out, t.cnt)) (inPhase .reqLow 17999#15 (sample true)) =
      some (.reqHigh, true, true, 0#15) := by decide

/-- V64. -/
theorem test_reqLow_counts :
    after (fun t => (t.st, t.oe, t.out, t.cnt)) (inPhase .reqLow 17998#15 (sample true)) =
      some (.reqLow, true, false, 17999#15) := by decide

/-- V67. -/
theorem test_reqHigh_end :
    after (fun t => (t.st, t.oe, t.out, t.cnt)) (inPhase .reqHigh 29#15 (sample false)) =
      some (.ackLow, false, true, 0#15) := by decide

/-- V66. -/
theorem test_reqHigh_counts :
    after (fun t => (t.st, t.oe, t.out, t.cnt)) (inPhase .reqHigh 28#15 (sample false)) =
      some (.reqHigh, true, true, 29#15) := by decide

/-- R169, its example: sample 81 is high. -/
theorem test_ackLow_handover :
    after (fun t => (t.st, t.cnt, t.ptres)) (inPhase .ackLow 80#15 (sample true)) =
      some (.ackHigh, 1#15, some (.duration 80#15)) := by decide

/-- R201: the 86th low sample. -/
theorem test_ackLow_timeout :
    after (fun t => (t.st, t.cnt, t.outcome, t.done)) (inPhase .ackLow 85#15 (sample false)) =
      some (.idle, 0#15, .timeoutError, true) := by decide

/-- R171, its example: sample 161 is low. -/
theorem test_ackHigh_handover :
    after (fun t => (t.st, t.cnt)) (inPhase .ackHigh 80#15 (sample false)) = some (.bitLow, 1#15) := by decide

/-- V15: the 86th high sample. -/
theorem test_ackHigh_timeout :
    after (fun t => (t.st, t.outcome, t.done)) (inPhase .ackHigh 85#15 (sample true)) =
      some (.idle, .timeoutError, true) := by decide

/-- V17: 56 low samples are valid. -/
theorem test_bitLow_handover :
    after (fun t => (t.st, t.cnt)) (inPhase .bitLow 56#15 (sample true)) = some (.bitHigh, 1#15) := by decide

/-- V18: the 57th low sample. -/
theorem test_bitLow_timeout :
    after (fun t => (t.st, t.outcome)) (inPhase .bitLow 56#15 (sample false)) =
      some (.idle, .timeoutError) := by decide

/-- R176, its example: `BITIDX` = 2, 70 high samples. -/
theorem test_bitHigh_writes_bit_5 :
    after (fun t => (t.frame.b0, t.bitidx, t.st, t.cnt))
        { inPhase .bitHigh 70#15 (sample false) with bitidx := 2 } =
      some (0b00100000#8, 3, .bitLow, 1#15) := by decide

/-- S5: exactly 40 high samples are a 0, which replaces the 1 in data bit 39; VALIDATE is next. -/
theorem test_bitHigh_forty_is_zero :
    after (fun t => (t.frame.b4, t.bitidx, t.st, t.cnt))
        { inPhase .bitHigh 40#15 (sample false) with bitidx := 39, frame := ⟨0#8, 0#8, 0#8, 0#8, 255#8⟩ } =
      some (254#8, 39, .validate, 0#15) := by decide

/-- V54: the sum wraps. -/
theorem test_validate_ok :
    after (fun t => (t.outcome, t.hum, t.temp, t.done, t.st))
        { inPhase .validate 0#15 (sample true) with frame := ⟨255#8, 1#8, 0#8, 0#8, 0#8⟩, temp := 25#8 } =
      some (.ok, 255#8, 0#8, true, .idle) := by decide

/-- V61. -/
theorem test_validate_checksumError :
    after (fun t => (t.outcome, t.hum, t.temp, t.done, t.st))
        { inPhase .validate 0#15 (sample true) with
          frame := ⟨60#8, 0#8, 30#8, 0#8, 91#8⟩, hum := 45#8, temp := 25#8 } =
      some (.checksumError, 45#8, 25#8, true, .idle) := by decide

/-- V69, V70. -/
theorem test_reset_wins :
    after (fun t => (t.st, t.bitidx, t.cnt, t.hum, t.cfg, t.pin, t.accepted, t.out))
        { inPhase .bitHigh 9#15 resetInput with bitidx := 12, hum := 45#8, temp := 25#8 } =
      some (.idle, 0, 0#15, 0#8, false, 0#8, false, true) := rfl

/-! ### Witnesses: concrete states that meet the hypotheses of the statements -/

theorem inputAt_of_map {f : Level → EdgeInput} {ls : List Level} {s : State} (h : s.inputs = ls.map f) (j : Nat)
    (hj : j < ls.length) : s.inputAt j = f ls[j] := by
  unfold State.inputAt
  rw [h, ← List.map_drop, List.drop_eq_getElem_cons hj]
  rfl

/-- Listed samples come with no reset. -/
theorem noReset_of_map {ls : List Level} {s : State} {k : Nat} (h : s.inputs = ls.map sample) (hk : k ≤ ls.length) :
    NoReset k s := fun j hj => by
  rw [inputAt_of_map h j (by omega)]
  rfl

/-- Listed samples are the samples, from any edge on. -/
theorem samplesFrom_of_map {ls ms : List Level} {s : State} {k : Nat} (h : s.inputs = ls.map sample)
    (hd : ls.drop k = ms) : SamplesFrom s k ms := fun j hj => by
  subst hd
  rw [List.length_drop] at hj
  rw [inputAt_of_map h (k + j) (by omega), List.getElem_drop]
  rfl

theorem test_hyp_ResetEdgeSetsEveryRegister :
    legalParams (inPhase .reqLow 5#15 resetInput).params = true ∧
      (inPhase .reqLow 5#15 resetInput).input.rst = true := by decide

theorem test_hyp_DecodeOfEncodeIsTheInstruction :
    (Instr.measure true 32766#15).wf = true ∧ (Instr.cfgPin 255#8).wf = true ∧ Instr.read.wf = true ∧
      Instr.validate.wf = true := by decide

/-- The first and the last word of each `op`. -/
theorem test_hyp_EveryCommandWordDecodes :
    (0x000#10).toNat / 256 = 0 ∧ (0x0FF#10).toNat / 256 = 0 ∧ (0x100#10).toNat / 256 = 1 ∧
      (0x1FF#10).toNat / 256 = 1 ∧ (0x200#10).toNat / 256 = 2 ∧ (0x2FF#10).toNat / 256 = 2 ∧
      (0x300#10).toNat / 256 = 3 ∧ (0x3FF#10).toNat / 256 = 3 := by decide

/-- `T` = 32766 and 32767 at both levels; a state with `CNT` = 0. -/
theorem test_hyp_RequestWordFields :
    (0x7FFE#16).toNat % 32768 ≤ 32766 ∧ (0xFFFE#16).toNat % 32768 ≤ 32766 ∧ (0x7FFF#16).toNat % 32768 = 32767 ∧
      (0xFFFF#16).toNat % 32768 = 32767 ∧ base.cnt = 0#15 := by decide

theorem test_hyp_ResultWordFields :
    (inPhase .bitHigh 75#15 (sample false)).cnt.toNat ≤ (75#15).toNat ∧
      ∃ t, exec (.measure true 75#15) (inPhase .bitHigh 75#15 (sample false)) = .next t ∧
        t.ptres = some (.duration 75#15) := ⟨by decide, _, rfl, rfl⟩

/-- A micro-operation alone, one with a command beside it, and the timer alone. -/
theorem test_hyp_StepRunsTheDecodedOperations :
    legalParams base.params = true ∧
      (inPhase .ackLow 85#15 (sample false)).input.rst = false ∧
      (inPhase .ackLow 85#15 (sample false)).timerAlone = none ∧
      decode (.seq (inPhase .ackLow 85#15 (sample false)).st.code) = .ok .ackLow ∧
      (inPhase .ackLow 85#15 (sample false)).input.cmdValid = false ∧
      (inPhase .ackLow 85#15 (command 0x2FF#10)).input.cmdValid = true ∧
      decode (.cmd (cmdWord (inPhase .ackLow 85#15 (command 0x2FF#10)).input.cmdOp
        (inPhase .ackLow 85#15 (command 0x2FF#10)).input.cmdArg)) = .ok .getHum ∧
      (alone 0x0055#16 [true]).timerAlone = some 0x0055#16 ∧
      decode (.pt 0x0055#16) = .ok (.measure false 85#15) := ⟨rfl, rfl, rfl, rfl, rfl, rfl, rfl, rfl, rfl⟩

theorem test_hyp_PlacedTableWordRuns :
    legalParams State.reset.params = true ∧ decodeTableWord 16 0x1FF = some .read ∧
      decodeTableWord 8 7 = some .validate ∧ decodeTableWord 16 0x804B = some (.measure true 75#15) ∧
      decodeTableWord 16 0x7FFF = none ∧ decodeTableWord 8 8 = none := by decide

/-- The bounds of R7's ranges are legal, the next values are not. -/
theorem test_hyp_ParametersOutsideTheirRangesAreRefused :
    legalParams ⟨18000, 20⟩ = true ∧ legalParams ⟨32767, 40⟩ = true ∧ legalParams ⟨17999, 30⟩ = false ∧
      legalParams ⟨32768, 30⟩ = false ∧ legalParams ⟨18000, 19⟩ = false ∧ legalParams ⟨18000, 41⟩ = false ∧
      legalParams ({ base with params := ⟨17999, 41⟩ } : State).params = false := by decide

theorem test_hyp_CfgPinSelectsTheLine :
    State.reset.st = .idle ∧ (inPhase .validate 0#15 (sample false)).st ≠ .idle := by decide

theorem test_hyp_ReadStartsAnAttempt :
    base.st = .idle ∧ base.cfg = true ∧ ¬(State.reset.st = .idle ∧ State.reset.cfg = true) := by decide

/-- A busy state for CFGPIN; for READ a busy one and one without a pin. -/
theorem test_hyp_CommandAcceptance :
    (inPhase .bitLow 1#15 (sample false)).st ≠ .idle ∧
      ¬((inPhase .bitLow 1#15 (sample false)).st = .idle ∧ (inPhase .bitLow 1#15 (sample false)).cfg = true) ∧
      ¬(State.reset.st = .idle ∧ State.reset.cfg = true) := by decide

theorem test_hyp_HeldCommandHasNoEffect :
    (inPhase .reqLow 2#15 (command 0x100#10)).timerAlone = none ∧
      (inPhase .reqLow 2#15 (command 0x100#10)).cmdReady = false := by decide

/-- GETHUM accepted, GETTEMP accepted, and an edge with neither. -/
theorem test_hyp_RdataIsCombinational :
    (inPhase .ackLow 1#15 (command 0x200#10)).timerAlone = none ∧
      after (fun t => t.accepted) (inPhase .ackLow 1#15 (command 0x200#10)) = some true ∧
      (inPhase .ackLow 1#15 (command 0x200#10)).input.cmdOp = 0b10#2 ∧
      after (fun t => t.accepted) (inPhase .ackLow 1#15 (command 0x300#10)) = some true ∧
      (inPhase .ackLow 1#15 (command 0x300#10)).input.cmdOp = 0b11#2 ∧
      after (fun t => t.accepted) (inPhase .ackLow 1#15 (command 0x100#10)) = some false := by decide

/-- The largest operand: the last sample that is counted, the first that is not, and a differing one. -/
theorem test_hyp_MeasureEdgeRule :
    (32766#15).toNat ≤ 32766 ∧ (inPhase .ackLow 32765#15 (sample false)).lineSample = false ∧
      (inPhase .ackLow 32765#15 (sample false)).cnt.toNat + 1 ≤ (32766#15).toNat ∧
      (32766#15).toNat < (inPhase .ackLow 32766#15 (sample false)).cnt.toNat + 1 ∧
      (inPhase .ackLow 32766#15 (sample true)).lineSample ≠ false := by decide

/-- MEASURE(2, 0): two matching samples and a differing one; three matching samples. -/
theorem test_hyp_MeasurementOfASampleStream :
    legalParams base.params = true ∧ (alone 0x0002#16 []).timerAlone = some (ptWord false 2#15) ∧
      (2#15).toNat ≤ 32766 ∧ (alone 0x0002#16 []).cnt = 0#15 ∧ 2 ≤ (2#15).toNat ∧
      NoReset (2 + 1) (alone 0x0002#16 [false, false, true]) ∧
      SamplesFrom (alone 0x0002#16 [false, false, true]) 0 (List.replicate 2 false ++ [!false]) ∧
      NoReset ((2#15).toNat + 1) (alone 0x0002#16 [false, false, false]) ∧
      SamplesFrom (alone 0x0002#16 [false, false, false]) 0 (List.replicate ((2#15).toNat + 1) false) :=
  ⟨rfl, rfl, by decide, rfl, by decide, noReset_of_map rfl (by decide), samplesFrom_of_map rfl rfl,
    noReset_of_map rfl (by decide), samplesFrom_of_map rfl rfl⟩

/-- One state for each of the three answers of the measurement. -/
theorem test_hyp_MeasuringStatesRunTheirRequest :
    Phase.bitHigh.ptreq = some 0x804B#16 ∧
      (∃ m, exec (.measure true 75#15) (inPhase .bitHigh 74#15 (sample true)) = .next m ∧ m.ptres = none) ∧
      (∃ m, exec (.measure true 75#15) (inPhase .bitHigh 75#15 (sample true)) = .next m ∧
        m.ptres = some .timeout) ∧
      (∃ m, exec (.measure true 75#15) (inPhase .bitHigh 75#15 (sample false)) = .next m ∧
        m.ptres = some (.duration 75#15)) := ⟨rfl, ⟨_, rfl, rfl⟩, ⟨_, rfl, rfl⟩, ⟨_, rfl, rfl⟩⟩

theorem test_hyp_IdleHoldsEveryRegister :
    let s : State := { base with inputs := [true, false, true].map sample }
    legalParams s.params = true ∧ s.timerAlone = none ∧ s.st = .idle ∧ NoReset 3 s ∧
      ∀ j < 3, (s.inputAt j).cmdValid = false :=
  ⟨rfl, rfl, rfl, noReset_of_map rfl (by decide), by decide⟩

/-- Both ends of `T_REQ_LOW`'s range: the last edge and the one before it. -/
theorem test_hyp_RequestLowEdge :
    let s : State := { inPhase .reqLow 32766#15 (sample false) with params := ⟨32767, 20⟩ }
    legalParams s.params = true ∧ s.cnt.toNat + 1 = s.params.tReqLow ∧
      (inPhase .reqLow 17998#15 (sample false)).cnt.toNat + 1 ≠ base.params.tReqLow ∧
      (inPhase .reqLow 17999#15 (sample false)).cnt.toNat + 1 = base.params.tReqLow := by decide

theorem test_hyp_RequestHighEdge :
    let s : State := { inPhase .reqHigh 39#15 (sample false) with params := ⟨18000, 40⟩ }
    legalParams s.params = true ∧ s.cnt.toNat + 1 = s.params.tReqHigh ∧
      (inPhase .reqHigh 28#15 (sample false)).cnt.toNat + 1 ≠ base.params.tReqHigh ∧
      (inPhase .reqHigh 29#15 (sample false)).cnt.toNat + 1 = base.params.tReqHigh := by decide

/-- A differing sample, the last matching sample within the bound, and the first past it. -/
theorem test_hyp_AckLowEdge :
    (inPhase .ackLow 85#15 (sample true)).lineSample ≠ false ∧
      (inPhase .ackLow 84#15 (sample false)).lineSample = false ∧
      (inPhase .ackLow 84#15 (sample false)).cnt.toNat + 1 ≤ 85 ∧
      85 < (inPhase .ackLow 85#15 (sample false)).cnt.toNat + 1 := by decide

theorem test_hyp_AckHighEdge :
    (inPhase .ackHigh 85#15 (sample false)).lineSample ≠ true ∧
      (inPhase .ackHigh 84#15 (sample true)).lineSample = true ∧
      (inPhase .ackHigh 84#15 (sample true)).cnt.toNat + 1 ≤ 85 ∧
      85 < (inPhase .ackHigh 85#15 (sample true)).cnt.toNat + 1 := by decide

theorem test_hyp_BitLowEdge :
    (inPhase .bitLow 56#15 (sample true)).lineSample ≠ false ∧
      (inPhase .bitLow 55#15 (sample false)).lineSample = false ∧
      (inPhase .bitLow 55#15 (sample false)).cnt.toNat + 1 ≤ 56 ∧
      56 < (inPhase .bitLow 56#15 (sample false)).cnt.toNat + 1 := by decide

/-- The last index, the one before it, the last counted sample and the first past the bound. -/
theorem test_hyp_BitHighEdge :
    (inPhase .bitHigh 75#15 (sample false)).lineSample = false ∧
      ({ inPhase .bitHigh 41#15 (sample false) with bitidx := 39 } : State).bitidx.val = 39 ∧
      ({ inPhase .bitHigh 41#15 (sample false) with bitidx := 38 } : State).bitidx.val + 1 < 40 ∧
      (inPhase .bitHigh 74#15 (sample true)).lineSample = true ∧
      (inPhase .bitHigh 74#15 (sample true)).cnt.toNat + 1 ≤ 75 ∧
      75 < (inPhase .bitHigh 75#15 (sample true)).cnt.toNat + 1 := by decide

theorem test_hyp_FrameStoreBitOrder : 7 < 8 ∧ 0 < 8 ∧ (39 : Fin 40).val / 8 < 5 ∧ (0 : Fin 40).val / 8 < 5 := by decide

theorem test_hyp_ValidateEdge :
    let f : Frame := ⟨255#8, 255#8, 255#8, 255#8, 252#8⟩
    f.b4.toNat = (f.b0.toNat + f.b1.toNat + f.b2.toNat + f.b3.toNat) % 256 ∧
      ({ f with b4 := 255#8 } : Frame).b4.toNat ≠
        (f.b0.toNat + f.b1.toNat + f.b2.toNat + f.b3.toNat) % 256 := by decide

theorem test_hyp_FlippedChecksumBitIsDetected :
    let f : Frame := ⟨45#8, 0#8, 25#8, 0#8, 70#8⟩
    7 < 8 ∧ f.b4.toNat = (f.b0.toNat + f.b1.toNat + f.b2.toNat + f.b3.toNat) % 256 := by decide

/-- One state for each of the four measuring states. -/
theorem test_hyp_TimeoutAbortsTheAttempt :
    ∀ q ∈ [(Phase.ackLow, 0x0055#16, 85#15), (.ackHigh, 0x8055#16, 85#15), (.bitLow, 0x0038#16, 56#15),
        (.bitHigh, 0x804B#16, 75#15)],
      let s := inPhase q.1 q.2.2 (sample (ptLevelField q.2.1))
      legalParams s.params = true ∧ s.timerAlone = none ∧ s.input.rst = false ∧ s.st.ptreq = some q.2.1 ∧
        s.lineSample = ptLevelField q.2.1 ∧ (ptTimeoutField q.2.1).toNat < s.cnt.toNat + 1 := by decide

theorem test_hyp_EveryEdgeHasASuccessor :
    legalParams (alone 0x7FFE#16 [true]).params = true ∧
      (∀ w, (alone 0x7FFE#16 [true]).timerAlone = some w → (ptTimeoutField w).toNat ≤ 32766) ∧
      (alone 0x7FFF#16 [true]).timerAlone = some 0x7FFF#16 ∧ (ptTimeoutField 0x7FFF#16).toNat = 32767 ∧
      (alone 0x7FFF#16 [true]).input.rst = false :=
  ⟨rfl, fun _ h => (by cases h; decide), rfl, rfl, rfl⟩

/-- GETHUM at a VALIDATE edge. -/
theorem test_hyp_CommandAndMicroOperationReadPreEdgeValues :
    let s := inPhase .validate 0#15 (command 0x200#10)
    legalParams s.params = true ∧ s.timerAlone = none ∧ s.input.rst = false ∧ s.presented = some .getHum ∧
      ∃ c m, exec .getHum s.beginEdge = .next c ∧ exec s.st.instr s.beginEdge = .next m :=
  ⟨rfl, rfl, rfl, rfl, _, _, rfl, rfl⟩

theorem test_hyp_StAdvancesOnlyAsTheTableSays :
    (inPhase .bitHigh 75#15 (sample false)).timerAlone = none ∧
      ∃ t, step (inPhase .bitHigh 75#15 (sample false)) = .next t := ⟨rfl, _, rfl⟩

theorem test_hyp_ReadingWrittenOnlyByAGoodFrame :
    ∃ t, step (inPhase .validate 0#15 (sample true)) = .next t := ⟨_, rfl⟩

/-- An edge that ends an attempt in VALIDATE, one that ends it elsewhere, one that does not end it, and a reset. -/
theorem test_hyp_DoneAndOutcomeMarkTheEndOfAnAttempt :
    (∃ t, step (inPhase .validate 0#15 (sample true)) = .next t ∧ t.st = .idle) ∧
      (∃ t, step (inPhase .bitLow 56#15 (sample false)) = .next t ∧ t.st = .idle) ∧
      (∃ t, step { base with done := true, inputs := [command 0x100#10] } = .next t ∧ t.st = .reqLow) ∧
      (∃ t, step (inPhase .bitLow 56#15 resetInput) = .next t) ∧
      (inPhase .bitLow 56#15 resetInput).input.rst = true :=
  ⟨⟨_, rfl, rfl⟩, ⟨_, rfl, rfl⟩, ⟨_, rfl, rfl⟩, ⟨_, rfl⟩, rfl⟩

/-- CFGPIN accepted, READ accepted, a busy edge, and a reset. -/
theorem test_hyp_PinAndCfgWrittenOnlyByCfgPin :
    ({ base with inputs := [command 0x0FF#10] } : State).accepting = true ∧
      ({ base with inputs := [command 0x0FF#10] } : State).input.cmdOp = 0b00#2 ∧
      ¬(({ base with inputs := [command 0x100#10] } : State).accepting = true ∧
        ({ base with inputs := [command 0x100#10] } : State).input.cmdOp = 0b00#2) ∧
      ({ base with inputs := [command 0x100#10] } : State).accepting = true ∧
      ({ base with inputs := [command 0x100#10] } : State).input.cmdOp = 0b01#2 ∧
      (inPhase .bitLow 56#15 resetInput).input.rst = true ∧
      (inPhase .bitHigh 3#15 (command 0x009#10)).st ≠ .idle ∧
      (after (fun t => t.pin) { base with inputs := [command 0x0FF#10] }).isSome = true := by decide

/-- A bit that changes. -/
theorem test_hyp_FrameWrittenOnlyByBitHigh :
    (inPhase .bitHigh 41#15 (sample false)).input.rst = false ∧
      ∃ t, step (inPhase .bitHigh 41#15 (sample false)) = .next t ∧
        t.frame.bit 0 ≠ (inPhase .bitHigh 41#15 (sample false)).frame.bit 0 := ⟨rfl, _, rfl, by decide⟩

theorem test_hyp_StepKeepsTheConfiguration : ∃ t, step (alone 0x0055#16 [false]) = .next t := ⟨_, rfl⟩

/-- A state that meets the invariant in the middle of an attempt. -/
theorem blockInv_bitHigh : BlockInv (inPhase .bitHigh 75#15 (sample false)) :=
  ⟨rfl, rfl, by decide, by decide, by decide, (by decide : 1 ≤ 75 ∧ 75 ≤ 75), by decide, by decide, by decide⟩

theorem test_hyp_EveryStepKeepsTheBlockInvariant :
    BlockInv (inPhase .bitHigh 75#15 (sample false)) ∧
      ∃ t, step (inPhase .bitHigh 75#15 (sample false)) = .next t := ⟨blockInv_bitHigh, _, rfl⟩

theorem test_hyp_EveryStepKeepsBitidxInPlace :
    BitidxInPlace (inPhase .ackHigh 85#15 (sample false)) ∧
      ∃ t, step (inPhase .ackHigh 85#15 (sample false)) = .next t := ⟨⟨fun _ => rfl, by decide⟩, _, rfl⟩

theorem test_hyp_BusyAndDoneAreNeverBothOne :
    BlockInv (inPhase .bitHigh 75#15 (sample false)) ∧
      ∃ t, runEdges 1 (inPhase .bitHigh 75#15 (sample false)) = .next t := ⟨blockInv_bitHigh, _, rfl⟩

theorem test_hyp_LineDrivenOnlyInTheRequestPhase :
    BlockInv (inPhase .bitHigh 75#15 (sample false)) ∧
      ∃ t, runEdges 0 (inPhase .bitHigh 75#15 (sample false)) = .next t := ⟨blockInv_bitHigh, _, rfl⟩

/-- The largest count there is, 32766, at the last edge of the longest legal REQ_LOW. -/
theorem test_hyp_CounterNeverWraps :
    let s : State := { inPhase .reqLow 32766#15 (sample false) with params := ⟨32767, 20⟩ }
    BlockInv s ∧ ∃ t, step s = .next t :=
  ⟨⟨rfl, rfl, by decide, by decide, by decide, (by decide : 32766 ≤ 32767 - 1), by decide, by decide, by decide⟩, _,
    rfl⟩

/-- A READ presented, and nothing presented, at the same busy edge. -/
theorem test_hyp_HostCannotDisturbAnAttempt :
    let s := inPhase .ackLow 3#15 (command 0x100#10)
    SameButCommands s (inPhase .ackLow 3#15 (sample false)) ∧ s.timerAlone = none ∧ s.st ≠ .idle ∧
      ∃ t, step s = .next t := ⟨⟨rfl, rfl, rfl, rfl⟩, rfl, by decide, _, rfl⟩

theorem test_hyp_LineIgnoredOutsideMeasurements :
    (inPhase .validate 0#15 (sample false)).timerAlone = none ∧
      (inPhase .validate 0#15 (sample false)).st.ptreq = none := ⟨rfl, rfl⟩

/-- `BITIDX` = 8: byte 0 is written, the other bytes differ between the two states. -/
theorem test_hyp_StaleFrameBitsNeverMatter :
    let s : State := { inPhase .bitHigh 41#15 (sample false) with bitidx := 8 }
    SameButStaleFrame s { s with frame := ⟨0#8, 255#8, 255#8, 255#8, 255#8⟩ } ∧ BitidxInPlace s ∧
      ∃ t, runEdges 1 s = .next t := ⟨⟨rfl, by decide⟩, ⟨by decide, by decide⟩, _, rfl⟩

theorem blockInv_base (i : EdgeInput) : BlockInv { base with inputs := [i] } :=
  ⟨rfl, rfl, by simp [base, State.reset], by simp [base, State.reset], by show (0#6).toNat ≤ 39; decide, rfl,
    fun _ => rfl, fun _ => rfl, by show (0#2 : BitVec 2) ≠ 3#2; decide⟩

theorem test_hyp_AcceptedReadStartsAnAttempt :
    let s : State := { base with inputs := [command 0x100#10] }
    BlockInv s ∧ s.input.rst = false ∧ s.input.cmdValid = true ∧ s.input.cmdOp = 0b01#2 ∧ s.st = .idle ∧
      s.cfg = true := ⟨blockInv_base _, rfl, rfl, rfl, rfl, rfl⟩

theorem attemptStart_attempt (ls : List Level) : AttemptStart (attempt ls) :=
  ⟨⟨rfl, rfl, ⟨fun _ => .inl rfl, fun _ => rfl⟩, ⟨fun _ => rfl, fun _ => rfl⟩, by show (0#6).toNat ≤ 39; decide,
    Nat.zero_le _, (fun h => nomatch h), fun _ => rfl, by show (0#2 : BitVec 2) ≠ 3#2; decide⟩, rfl, rfl, rfl⟩

theorem releaseEdge_attempt (ls : List Level) : releaseEdge (attempt ls) = 18030 := rfl

theorem test_hyp_RequestPhaseDrivesTheLine :
    ∃ s, AttemptStart s ∧ NoReset (releaseEdge s) s :=
  ⟨attempt (List.replicate 18030 false), attemptStart_attempt _,
    noReset_of_map rfl (by rw [releaseEdge_attempt, List.length_replicate])⟩

theorem runsWithin_ones (n j : Nat) : RunsWithin j (List.replicate n 1) := by
  induction n generalizing j with
  | zero => trivial
  | succ n ih => exact ⟨.inr (Nat.le_refl 1), by unfold runBound; split_ifs <;> decide, ih (j + 1)⟩

/-- V36: no acknowledgement-low sample, every other run of one sample. -/
def shortRuns : List Nat := 0 :: List.replicate 81 1

/-- The same with 41 samples in the high run of data bit 0. -/
def oneBitRuns : List Nat := [0, 1, 1, 41] ++ List.replicate 78 1

theorem runsWithin_shortRuns : RunsWithin 0 shortRuns := ⟨.inl rfl, Nat.zero_le _, runsWithin_ones 81 1⟩

theorem runsWithin_oneBitRuns : RunsWithin 0 oneBitRuns :=
  ⟨.inl rfl, by decide, .inr (by decide), by decide, .inr (by decide), by decide, .inr (by decide), by decide,
    runsWithin_ones 78 4⟩

/-- The frames that the two replies decode to: the one sums right, the other does not. -/
theorem test_frames_of_the_replies :
    (∀ n : Fin 40, (⟨0#8, 0#8, 0#8, 0#8, 0#8⟩ : Frame).bit n = decide (40 < shortRuns.getD (2 * n.val + 3) 0)) ∧
      (∀ n : Fin 40, (⟨128#8, 0#8, 0#8, 0#8, 0#8⟩ : Frame).bit n =
        decide (40 < oneBitRuns.getD (2 * n.val + 3) 0)) := by decide

/-- A reply to an attempt in the defaults, as the inputs to come. -/
def replied (ls : List Level) : State := attempt (List.replicate 18030 true ++ ls)

theorem samplesFrom_replied (ls : List Level) : SamplesFrom (replied ls) (releaseEdge (replied ls)) ls :=
  samplesFrom_of_map rfl (by
    rw [show releaseEdge (replied ls) = (List.replicate 18030 true).length from (List.length_replicate).symm,
      List.drop_left])

theorem noReset_replied {ls : List Level} {k : Nat} (hk : k ≤ 18030 + ls.length) : NoReset k (replied ls) :=
  noReset_of_map rfl (by rw [List.length_append, List.length_replicate]; exact hk)

theorem samplesFrom_append {s : State} {k : Nat} {ls ms : List Level} (h : SamplesFrom s k (ls ++ ms)) :
    SamplesFrom s k ls := h.split.1

/-- Both replies. -/
theorem test_hyp_WellFormedReplyIsDecoded :
    ∀ ds ∈ [shortRuns, oneBitRuns], ∃ s, ds.length = 82 ∧ AttemptStart s ∧ RunsWithin 0 ds ∧
      SamplesFrom s (releaseEdge s) (waveform 0 ds ++ [false]) ∧ NoReset (releaseEdge s + ds.sum + 2) s := by
  intro ds hds
  have hlen : ds.length = 82 ∧ (waveform 0 ds).length = ds.sum := by
    simp only [List.mem_cons, List.not_mem_nil, or_false] at hds
    rcases hds with rfl | rfl <;> decide
  refine ⟨replied ((waveform 0 ds ++ [false]) ++ [false]), hlen.1, attemptStart_attempt _, ?_,
    samplesFrom_append (samplesFrom_replied _), noReset_replied ?_⟩
  · simp only [List.mem_cons, List.not_mem_nil, or_false] at hds
    rcases hds with rfl | rfl
    · exact runsWithin_shortRuns
    · exact runsWithin_oneBitRuns
  · rw [List.length_append, List.length_append, hlen.2]
    exact Nat.le_refl _

/-- V37 (the low run of data bit 0 is too long), and the line low from the first sample. -/
theorem test_hyp_OverlongRunTimesOut :
    ∀ ds ∈ [[0, 1], []], ∃ s, ds.length < 82 ∧ AttemptStart s ∧ RunsWithin 0 ds ∧
      SamplesFrom s (releaseEdge s)
        (waveform 0 ds ++ List.replicate (runBound ds.length + 1) (runLevel ds.length)) ∧
      NoReset (releaseEdge s + ds.sum + runBound ds.length + 1) s := by
  intro ds hds
  have hlen : ds.length < 82 ∧ (waveform 0 ds).length = ds.sum := by
    simp only [List.mem_cons, List.not_mem_nil, or_false] at hds
    rcases hds with rfl | rfl <;> decide
  refine ⟨replied (waveform 0 ds ++ List.replicate (runBound ds.length + 1) (runLevel ds.length)), hlen.1,
    attemptStart_attempt _, ?_, samplesFrom_replied _, noReset_replied ?_⟩
  · simp only [List.mem_cons, List.not_mem_nil, or_false] at hds
    rcases hds with rfl | rfl
    · exact ⟨.inl rfl, Nat.zero_le _, .inr (Nat.le_refl 1), by decide, trivial⟩
    · trivial
  · rw [List.length_append, hlen.2, List.length_replicate, show releaseEdge (replied _) = 18030 from rfl]
    omega

theorem test_hyp_EveryAttemptEndsWithinItsBounds :
    ∃ s, AttemptStart s ∧ NoReset (releaseEdge s + 5412) s :=
  ⟨replied (List.replicate 5412 true), attemptStart_attempt _, noReset_replied (by
    rw [List.length_replicate, show releaseEdge (replied _) = 18030 from rfl])⟩

end Sys2Proof.Tests
end

section
/-! The parameters (R7): what a legal configuration is, and the refusal of every other one. -/

namespace Sys2Proof.Machine

/-- R7's ranges, with the upper bound of `T_REQ_LOW` written as the rule writes it. -/
theorem legalParams_iff (p : Params) :
    legalParams p = true ↔
      18000 ≤ p.tReqLow ∧ p.tReqLow ≤ 2 ^ 15 - 1 ∧ 20 ≤ p.tReqHigh ∧ p.tReqHigh ≤ 40 :=
  decide_eq_true_iff

theorem step_of_illegalParams {s : State} (h : legalParams s.params = false) :
    step s = .refused .illegalParameters := by
  simp [step, h]

theorem exec_reqLow_of_illegalParams {s : State} (h : legalParams s.params = false) :
    exec .reqLow s = .refused .illegalParameters := by
  simp [exec, execReqLow, h]

theorem exec_reqHigh_of_illegalParams {s : State} (h : legalParams s.params = false) :
    exec .reqHigh s = .refused .illegalParameters := by
  simp [exec, execReqHigh, h]

/-- Settles O11: the step, REQ_LOW and REQ_HIGH each test R7's ranges before anything else. -/
theorem parametersOutsideTheirRangesAreRefused : Obligations.ParametersOutsideTheirRangesAreRefused :=
  ⟨rfl, legalParams_iff, fun _ h =>
    ⟨step_of_illegalParams h, exec_reqLow_of_illegalParams h, exec_reqHigh_of_illegalParams h⟩⟩

end Sys2Proof.Machine
end

section
/-! The registers of `10_state.md`: which edge writes each of them, and with what. A step of the block is a reset edge,
an edge in IDLE (the command's alone) or a busy edge (`BusyEdge`), so each register needs one lemma for each kind. -/

namespace Sys2Proof.Machine

/-- A step of the block is a reset edge or an edge with `rst` = 0: the timer is not alone. -/
theorem step_inBlock_cases {s t : State} (ha : s.timerAlone = none) (h : step s = .next t) :
    (s.input.rst = true ∧ t = s.resetEdge) ∨ (s.input.rst = false ∧ t = blockResult s) := by
  obtain ⟨-, hreset | ⟨hr, -, ht⟩ | ⟨-, w, hw, -, -⟩⟩ := step_next_cases h
  · exact .inl hreset
  · exact .inr ⟨hr, ht⟩
  · exact nomatch ha.symm.trans hw

/-- The three kinds of edge of the block: reset, the command's edge in IDLE, a busy edge (R160, R162). -/
theorem step_block_cases {s t : State} (ha : s.timerAlone = none) (h : step s = .next t) :
    (s.input.rst = true ∧ t = s.resetEdge) ∨
      (s.input.rst = false ∧ s.st = .idle ∧ t = (commandResult s).endEdge) ∨
      (s.input.rst = false ∧ s.st ≠ .idle ∧ BusyEdge s t) := by
  obtain hreset | ⟨hr, rfl⟩ := step_inBlock_cases ha h
  · exact .inl hreset
  · by_cases hst : s.st = .idle
    · exact .inr (.inl ⟨hr, hst, blockResult_idle hst⟩)
    · exact .inr (.inr ⟨hr, hst, blockResult_busyEdge hst⟩)

/-! ### The command of an edge: acceptance, and the registers it writes -/

/-- When CFGPIN is accepted (R120, R121). -/
theorem accepting_cfgPin_iff {s : State} (hop : s.input.cmdOp = 0b00#2) :
    s.accepting = true ↔ s.input.rst = false ∧ s.input.cmdValid = true ∧ s.st = .idle := by
  simp [State.accepting, State.cmdReady, accept, hop, and_assoc]

/-- When READ is accepted (R120, R121). -/
theorem accepting_read_iff {s : State} (hop : s.input.cmdOp = 0b01#2) :
    s.accepting = true ↔ s.input.rst = false ∧ s.input.cmdValid = true ∧ s.st = .idle ∧ s.cfg = true := by
  simp [State.accepting, State.cmdReady, accept, hop, and_assoc]

/-- While busy no READ is accepted (R121). -/
theorem not_accepting_read_of_busy {s : State} (hst : s.st ≠ .idle) :
    ¬(s.accepting = true ∧ s.input.cmdOp = 0b01#2) := by
  rintro ⟨hacc, hop⟩
  obtain ⟨-, -, hidle, -⟩ := (accepting_read_iff hop).mp hacc
  exact hst hidle

/-- The negation of "a READ is accepted", as the Boolean that R27's table tests. -/
theorem accepting_and_read_eq_false {s : State} (h : ¬(s.accepting = true ∧ s.input.cmdOp = 0b01#2)) :
    (s.accepting && decide (s.input.cmdOp = 0b01#2)) = false :=
  eq_false_of_ne_true (by simpa using h)

/-- What an accepted CFGPIN does (R122). -/
theorem commandResult_cfgPin {s : State} (hop : s.input.cmdOp = 0b00#2) (h : s.accepting = true) :
    commandResult s = { s.beginEdge.respond true 0#8 with pin := s.input.cmdArg, cfg := true } := by
  obtain ⟨-, hv, hst⟩ := (accepting_cfgPin_iff hop).mp h
  simp [commandResult, hv, hop, hst]

/-- What an accepted READ does (R123). -/
theorem commandResult_read {s : State} (hop : s.input.cmdOp = 0b01#2) (h : s.accepting = true) :
    commandResult s = { s.beginEdge.respond true 0#8 with
      oe := true, out := false, st := .reqLow, cnt := 0#15, bitidx := 0, done := false } := by
  obtain ⟨-, hv, hst, hcfg⟩ := (accepting_read_iff hop).mp h
  simp [commandResult, hv, hop, hst, hcfg]

/-- No command but an accepted CFGPIN writes `PIN` or `CFG`. -/
theorem commandResult_pin_cfg_of_not_cfgPin {s : State} (hr : s.input.rst = false)
    (h : ¬(s.accepting = true ∧ s.input.cmdOp = 0b00#2)) :
    (commandResult s).pin = s.pin ∧ (commandResult s).cfg = s.cfg := by
  unfold commandResult
  split_ifs with hv hop hst
  · exact absurd ⟨(accepting_cfgPin_iff hop).mpr ⟨hr, hv, hst⟩, hop⟩ h
  all_goals exact ⟨rfl, rfl⟩

/-- No command but an accepted READ writes `ST` or `DONE`. -/
theorem commandResult_st_done_of_not_read {s : State} (hr : s.input.rst = false)
    (h : ¬(s.accepting = true ∧ s.input.cmdOp = 0b01#2)) :
    (commandResult s).st = s.st ∧ (commandResult s).done = s.done := by
  unfold commandResult
  split_ifs with hv hop0 hst hop hready
  · exact ⟨rfl, rfl⟩
  · exact ⟨rfl, rfl⟩
  · exact absurd ⟨(accepting_read_iff hop).mpr ⟨hr, hv, hready⟩, hop⟩ h
  all_goals exact ⟨rfl, rfl⟩

/-! ### Reset -/

/-- Settles O1: the values of the reset edge, read off field by field. -/
theorem resetEdgeSetsEveryRegister : Obligations.ResetEdgeSetsEveryRegister := by
  intro s hp hr
  refine ⟨s.resetEdge, step_reset hp hr, ?_⟩
  simp [Phase.code, State.bitidxBits, ReadOutcome.code, State.busyPort, State.busy, State.driven, accept]

/-! ### `ST` -/

/-- A measuring state whose sample matches is left only by its timeout (R27, R168). -/
theorem phaseAfter_of_match {s : State} {level : Level} {bound : Nat} (hr : s.input.rst = false)
    (hm : measurement s.st = some (level, bound)) (hs : s.lineSample = level) :
    phaseAfter s = if bound < s.cnt.toNat + 1 then .idle else s.st := by
  cases hst : s.st <;> rw [hst] at hm <;> cases hm <;> simp [phaseAfter, hr, hst, hs]

/-- In IDLE `ST` advances where a READ is accepted (R27). -/
theorem commandResult_st_eq_phaseAfter {s : State} (hr : s.input.rst = false) (hst : s.st = .idle) :
    (commandResult s).st = phaseAfter s := by
  by_cases h : s.accepting = true ∧ s.input.cmdOp = 0b01#2
  · obtain ⟨hacc, hop⟩ := h
    simp [commandResult_read hop hacc, phaseAfter, hr, hst, hacc, hop]
  · rw [(commandResult_st_done_of_not_read hr h).1]
    simp [phaseAfter, hr, hst, h]

/-- At a busy edge `ST` advances as its row of R27's table says. -/
theorem BusyEdge.st_eq_phaseAfter {s t : State} (h : BusyEdge s t) (hr : s.input.rst = false) :
    t.st = phaseAfter s := by
  cases h with
  | count level bound hm hs hc => rw [phaseAfter_of_match hr hm hs, if_neg (by omega)]; rfl
  | timeout level bound hm hs hc => rw [phaseAfter_of_match hr hm hs, if_pos hc]; rfl
  | reqLowCount hst hc | reqLowEnd hst hc | reqHighCount hst hc | reqHighEnd hst hc => simp [phaseAfter, hr, hst, hc]
  | ackLowEnd hst hs | ackHighEnd hst hs | bitLowEnd hst hs => simp [phaseAfter, hr, hst, hs]
  | nextBit hst hs hb => simp [phaseAfter, hr, hst, hs, show s.bitidx.val < 39 by omega]
  | lastBit hst hs hb => simp [phaseAfter, hr, hst, hs, hb]
  | checksumRight hst | checksumWrong hst => simp [phaseAfter, hr, hst]

/-- Settles O36: reset, the command in IDLE and each busy edge follow the table of R27. -/
theorem stAdvancesOnlyAsTheTableSays : Obligations.StAdvancesOnlyAsTheTableSays := by
  intro s t ha h
  obtain ⟨hr, rfl⟩ | ⟨hr, hst, rfl⟩ | ⟨hr, -, hedge⟩ := step_block_cases ha h
  · simp [phaseAfter, hr]
  · exact commandResult_st_eq_phaseAfter hr hst
  · exact hedge.st_eq_phaseAfter hr

/-! ### `HUM` and `TEMP` -/

/-- The checksum test as R179 writes it, in natural numbers. -/
theorem Frame.checksum_toNat (f : Frame) :
    f.checksum.toNat = (f.b0.toNat + f.b1.toNat + f.b2.toNat + f.b3.toNat) % 256 := by
  simp [Frame.checksum, BitVec.toNat_add]

/-- A busy edge writes the reading only in VALIDATE with a matching checksum (R23). -/
theorem BusyEdge.reading {s t : State} (h : BusyEdge s t) :
    (t.hum = s.hum ∧ t.temp = s.temp) ∨
      (s.st = .validate ∧ s.frame.b4 = s.frame.checksum ∧ t.hum = s.frame.b0 ∧ t.temp = s.frame.b2 ∧
        t.outcome = .ok ∧ t.done = true) := by
  cases h with
  | checksumRight hst hf => exact .inr ⟨hst, hf, rfl, rfl, rfl, rfl⟩
  | _ => exact .inl ⟨rfl, rfl⟩

/-- A measurement does not touch the reading (R144). -/
theorem State.measureEdge_reading (s : State) (level : Level) (timeout : Count) :
    (s.measureEdge level timeout).hum = s.hum ∧ (s.measureEdge level timeout).temp = s.temp := by
  unfold State.measureEdge
  split_ifs <;> exact ⟨rfl, rfl⟩

/-- Nor does any other edge of the block with `rst` = 0: in IDLE the command does not touch the reading (R23). -/
theorem blockResult_reading (s : State) :
    ((blockResult s).hum = s.hum ∧ (blockResult s).temp = s.temp) ∨
      (s.st = .validate ∧ s.frame.b4 = s.frame.checksum ∧ (blockResult s).hum = s.frame.b0 ∧
        (blockResult s).temp = s.frame.b2 ∧ (blockResult s).outcome = .ok ∧ (blockResult s).done = true) := by
  by_cases hst : s.st = .idle
  · rw [blockResult_idle hst]
    exact .inl ⟨commandResult_hum s, commandResult_temp s⟩
  · exact (blockResult_busyEdge hst).reading

/-- Settles O37: of all edges, those of the timer alone included, only reset and a good VALIDATE write the reading. -/
theorem readingWrittenOnlyByAGoodFrame : Obligations.ReadingWrittenOnlyByAGoodFrame := by
  intro s t h
  obtain ⟨-, ⟨hr, rfl⟩ | ⟨hr, ha, rfl⟩ | ⟨hr, w, -, -, rfl⟩⟩ := step_next_cases h
  · exact .inl ⟨hr, rfl, rfl⟩
  · obtain hkept | ⟨hst, hsum, hwritten⟩ := blockResult_reading s
    · exact .inr (.inl ⟨hr, hkept⟩)
    · exact .inr (.inr ⟨hr, ha, hst, hsum ▸ s.frame.checksum_toNat, hwritten⟩)
  · exact .inr (.inl ⟨hr, s.beginEdge.measureEdge_reading _ _⟩)

/-! ### `OUTCOME` and `DONE` -/

/-- The code 3 of `OUTCOME` is never produced (R29, R102). -/
theorem ReadOutcome.code_ne_three (o : ReadOutcome) : o.code ≠ 3#2 := by
  cases o <;> decide

/-- IDLE and VALIDATE do not measure (R95). -/
theorem not_idle_or_validate_of_measurement {p : Phase} {m : Level × Nat} (hm : measurement p = some m) :
    p ≠ .idle ∧ p ≠ .validate := by
  constructor <;> rintro rfl <;> cases hm

/-- A busy edge either ends the attempt, with `DONE` and the outcome of its end, or leaves `OUTCOME` and `DONE` alone
(R29, R30). -/
theorem BusyEdge.outcome_done {s t : State} (h : BusyEdge s t) :
    (t.st = .idle ∧ t.done = true ∧ (s.st = .validate → t.outcome = .ok ∨ t.outcome = .checksumError) ∧
        (s.st ≠ .validate → t.outcome = .timeoutError)) ∨
      (t.st ≠ .idle ∧ t.outcome = s.outcome ∧ t.done = s.done) := by
  cases h with
  | timeout level bound hm =>
    obtain ⟨-, hne⟩ := not_idle_or_validate_of_measurement hm
    exact .inl ⟨rfl, rfl, fun hst => absurd hst hne, fun _ => rfl⟩
  | checksumRight hst => exact .inl ⟨rfl, rfl, fun _ => .inl rfl, fun hne => absurd hst hne⟩
  | checksumWrong hst => exact .inl ⟨rfl, rfl, fun _ => .inr rfl, fun hne => absurd hst hne⟩
  | count level bound hm =>
    obtain ⟨hne, -⟩ := not_idle_or_validate_of_measurement hm
    exact .inr ⟨hne, rfl, rfl⟩
  | reqLowCount hst | reqHighCount hst => exact .inr ⟨by simp [hst], rfl, rfl⟩
  | _ => exact .inr ⟨by simp, rfl, rfl⟩

/-- The command of an edge clears `DONE` exactly where it is an accepted READ (R30). -/
theorem commandResult_done {s : State} (hr : s.input.rst = false) :
    (commandResult s).done = (s.done && !(s.accepting && decide (s.input.cmdOp = 0b01#2))) := by
  by_cases h : s.accepting = true ∧ s.input.cmdOp = 0b01#2
  · obtain ⟨hacc, hop⟩ := h
    simp [commandResult_read hop hacc, hacc, hop]
  · rw [(commandResult_st_done_of_not_read hr h).2, accepting_and_read_eq_false h, Bool.not_false, Bool.and_true]

/-- Every edge of the block keeps "`DONE` = 1 says that no attempt is running" (R30, R47). -/
theorem step_st_idle_of_done {s t : State} (hinv : s.done = true → s.st = .idle) (ha : s.timerAlone = none)
    (h : step s = .next t) (hdone : t.done = true) : t.st = .idle := by
  obtain ⟨-, rfl⟩ | ⟨hr, hst, rfl⟩ | ⟨-, hst, hedge⟩ := step_block_cases ha h
  · rfl
  · by_cases hread : s.accepting = true ∧ s.input.cmdOp = 0b01#2
    · obtain ⟨hacc, hop⟩ := hread
      simp [commandResult_read hop hacc] at hdone
    · simpa [hst] using (commandResult_st_done_of_not_read hr hread).1
  · obtain ⟨hidle, -⟩ | ⟨-, -, hkept⟩ := hedge.outcome_done
    · exact hidle
    · exact absurd (hinv (hkept ▸ hdone)) hst

/-- Settles O38: reset, the command in IDLE and each busy edge, by whether it ends the attempt. -/
theorem doneAndOutcomeMarkTheEndOfAnAttempt : Obligations.DoneAndOutcomeMarkTheEndOfAnAttempt := by
  refine ⟨rfl, rfl, rfl, fun s t ha h => ⟨t.outcome.code_ne_three, fun hinv hdone => ?_, ?_⟩⟩
  · simpa [State.busyPort, State.busy] using step_st_idle_of_done hinv.done ha h hdone
  obtain ⟨hr, rfl⟩ | ⟨hr, hst, rfl⟩ | ⟨hr, hst, hedge⟩ := step_block_cases ha h
  · exact ⟨fun _ => ⟨rfl, rfl⟩, fun hr' => absurd hr' (by simp [hr])⟩
  · exact ⟨fun hr' => absurd hr' (by simp [hr]), fun _ => ⟨fun hbusy => absurd hst hbusy, fun _ =>
      ⟨commandResult_outcome s, commandResult_done hr⟩⟩⟩
  · rw [accepting_and_read_eq_false (not_accepting_read_of_busy hst), Bool.not_false, Bool.and_true]
    refine ⟨fun hr' => absurd hr' (by simp [hr]), fun _ => ?_⟩
    obtain ⟨hidle, hend⟩ | ⟨hbusy, hkept⟩ := hedge.outcome_done
    · exact ⟨fun _ _ => hend, fun hne => absurd ⟨hst, hidle⟩ hne⟩
    · exact ⟨fun _ hidle => absurd hidle hbusy, fun _ => hkept⟩

/-! ### `CFG` and `PIN` -/

/-- Of an edge of the block with `rst` = 0 only the command can write `PIN` and `CFG` (R32, R33). -/
theorem blockResult_pin_cfg (s : State) :
    (blockResult s).pin = (commandResult s).pin ∧ (blockResult s).cfg = (commandResult s).cfg := by
  simp [blockResult]

/-- A READ is accepted only while a pin is selected (R32). -/
theorem cfg_of_accepting_read {s : State} (hacc : s.accepting = true) (hop : s.input.cmdOp = 0b01#2) :
    s.cfg = true := by
  obtain ⟨-, -, -, hcfg⟩ := (accepting_read_iff hop).mp hacc
  exact hcfg

/-- Settles O39: only the command of an edge can write the two, and only an accepted CFGPIN does. -/
theorem pinAndCfgWrittenOnlyByCfgPin : Obligations.PinAndCfgWrittenOnlyByCfgPin := by
  intro s t ha h
  obtain ⟨hr, rfl⟩ | ⟨hr, rfl⟩ := step_inBlock_cases ha h
  · exact ⟨fun _ => ⟨rfl, rfl⟩, cfg_of_accepting_read, fun hr' => absurd hr' (by simp [hr])⟩
  · obtain ⟨hpin, hcfg⟩ := blockResult_pin_cfg s
    rw [hpin, hcfg]
    refine ⟨fun hr' => absurd hr' (by simp [hr]), cfg_of_accepting_read, fun _ =>
      ⟨fun hacc hop => ?_, commandResult_pin_cfg_of_not_cfgPin hr, fun hst => ?_⟩⟩
    · obtain ⟨-, -, hst⟩ := (accepting_cfgPin_iff hop).mp hacc
      rw [commandResult_cfgPin hop hacc]
      exact ⟨hst, rfl, rfl⟩
    · rw [commandResult_busy hst]
      exact ⟨rfl, rfl⟩

end Sys2Proof.Machine
end

section
/-! The storage spaces of `20_memory.md`: where a data bit lives in the frame (R64), and in which states the block
drives the line (R62). -/

namespace Sys2Proof.Machine

/-! ### The place of a data bit -/

/-- The frame's store, seen by the bits of the bytes: one bit of one byte is replaced (R64). -/
theorem Frame.byte_writeBit_getLsbD (f : Frame) (n : Fin 40) (b : Bool) (i : Fin 5) {p : Nat} (hp : p < 8) :
    ((f.writeBit n b).byte i).getLsbD p =
      if i = byteIndex n ∧ p = bitPos n then b else (f.byte i).getLsbD p := by
  unfold Frame.writeBit
  by_cases hi : i = byteIndex n
  · subst hi
    rw [Frame.byte_setByte_same, setBit_getLsbD _ (bitPos_lt n) hp]
    simp
  · rw [Frame.byte_setByte_ne _ _ hi]
    simp [hi]

/-- The six bits of `BITIDX` hold its value (R26). -/
theorem State.bitidxBits_toNat (s : State) : s.bitidxBits.toNat = s.bitidx.val := by
  rw [State.bitidxBits, BitVec.toNat_ofNat]
  omega

/-- `BITIDX[5:3]` is the byte of the data bit (R64). -/
theorem byteIndex_bitidx (s : State) : (byteIndex s.bitidx).val = (s.bitidxBits.extractLsb' 3 3).toNat := by
  rw [BitVec.extractLsb'_toNat, State.bitidxBits_toNat, Nat.shiftRight_eq_div_pow]
  show s.bitidx.val / 8 = s.bitidx.val / 8 % 8
  omega

/-- `7 − BITIDX[2:0]` is the position of the data bit (R64). -/
theorem bitPos_bitidx (s : State) : bitPos s.bitidx = 7 - (s.bitidxBits.extractLsb' 0 3).toNat := by
  rw [BitVec.extractLsb'_toNat, State.bitidxBits_toNat, Nat.shiftRight_zero]
  rfl

/-- Settles O30: the store by `Frame.byte_writeBit_getLsbD`, the place by the fields of `BITIDX`. -/
theorem frameStoreBitOrder : Obligations.FrameStoreBitOrder := by
  refine ⟨fun f n b i p hp => ?_, fun _ _ _ => rfl, fun _ => rfl, fun s => ⟨byteIndex_bitidx s, bitPos_bitidx s⟩⟩
  simp only [Frame.byte_writeBit_getLsbD f n b i hp, Fin.ext_iff, byteIndex, bitPos]

/-! ### The drive of the line -/

/-- What holds of every state that a run reaches, if every step keeps it. -/
theorem runEdges_keeps {P : State → Prop} (hstep : ∀ s t, P s → step s = .next t → P t) {k : Nat} {s t : State}
    (hs : P s) (h : runEdges k s = .next t) : P t := by
  induction k generalizing s with
  | zero =>
    cases h
    exact hs
  | succ k ih =>
    obtain ⟨u, hu, ht⟩ := andThen_eq_next (show andThen (step s) (runEdges k) = .next t from h)
    exact ih (hstep s u hs hu) ht

/-- Where the timer is in the block it stays there (log 6). -/
theorem step_timerAlone {s t : State} (ha : s.timerAlone = none) (h : step s = .next t) : t.timerAlone = none := by
  obtain ⟨-, rfl⟩ | ⟨-, rfl⟩ := step_inBlock_cases ha h
  · rfl
  · simp [blockResult, ha]

/-- `OE` and `OUT` in each state of the sequencer (R62, R47). -/
def Phase.drive : Phase → Bool × Bool
  | .reqLow => (true, false)
  | .reqHigh => (true, true)
  | _ => (false, true)

/-- The line's two registers hold what R62 gives for the state of the sequencer. -/
def LineFollowsPhase (s : State) : Prop := (s.oe, s.out) = s.st.drive

/-- The two clauses of R47 about the line, as one equation. -/
theorem lineFollowsPhase_iff {s : State} :
    LineFollowsPhase s ↔
      (s.oe = true ↔ s.st = .reqLow ∨ s.st = .reqHigh) ∧ (s.out = false ↔ s.st = .reqLow) := by
  unfold LineFollowsPhase
  cases s.st <;> simp [Phase.drive]

theorem BlockInv.lineFollowsPhase {s : State} (h : BlockInv s) : LineFollowsPhase s :=
  lineFollowsPhase_iff.mpr ⟨h.oe, h.out⟩

theorem LineFollowsPhase.eq_drive {s : State} {p : Phase} (h : LineFollowsPhase s) (hst : s.st = p) :
    (s.oe, s.out) = p.drive :=
  hst ▸ h

/-- The measuring states do not drive the line (R62). -/
theorem drive_of_measurement {p : Phase} {m : Level × Nat} (hm : measurement p = some m) :
    p.drive = (false, true) := by
  cases p with
  | ackLow | ackHigh | bitLow | bitHigh => rfl
  | _ => cases hm

/-- No command but an accepted READ drives the line (R62). -/
theorem commandResult_oe_out_of_not_read {s : State} (hr : s.input.rst = false)
    (h : ¬(s.accepting = true ∧ s.input.cmdOp = 0b01#2)) :
    (commandResult s).oe = s.oe ∧ (commandResult s).out = s.out := by
  unfold commandResult
  split_ifs with hv hop0 hst hop hready
  · exact ⟨rfl, rfl⟩
  · exact ⟨rfl, rfl⟩
  · exact absurd ⟨(accepting_read_iff hop).mpr ⟨hr, hv, hready⟩, hop⟩ h
  all_goals exact ⟨rfl, rfl⟩

/-- The command writes `OE` and `OUT` with `ST`, where it is an accepted READ, or none of them (R123). -/
theorem commandResult_lineFollowsPhase {s : State} (h : LineFollowsPhase s) (hr : s.input.rst = false) :
    LineFollowsPhase (commandResult s) := by
  by_cases hread : s.accepting = true ∧ s.input.cmdOp = 0b01#2
  · obtain ⟨hacc, hop⟩ := hread
    rw [commandResult_read hop hacc]
    rfl
  · obtain ⟨hoe, hout⟩ := commandResult_oe_out_of_not_read hr hread
    rw [LineFollowsPhase, hoe, hout, (commandResult_st_done_of_not_read hr hread).1]
    exact h

/-- A busy edge that leaves REQ_LOW or REQ_HIGH writes the drive of the state it goes to; every other one stays in its
state or goes from one state that does not drive the line to another. -/
theorem BusyEdge.lineFollowsPhase {s t : State} (hedge : BusyEdge s t) (h : LineFollowsPhase s) :
    LineFollowsPhase t := by
  cases hedge with
  | reqLowCount | reqHighCount | count => exact h
  | reqLowEnd hst => exact congrArg (·.1, true) (h.eq_drive hst)
  | reqHighEnd hst => exact congrArg (false, ·.2) (h.eq_drive hst)
  | timeout level bound hm => exact h.trans (drive_of_measurement hm)
  | ackLowEnd hst | ackHighEnd hst | bitLowEnd hst | nextBit hst | lastBit hst | checksumRight hst
  | checksumWrong hst => exact (h.eq_drive hst :)

/-- Every edge of the block keeps the line's registers in step with `ST` (R62). -/
theorem step_lineFollowsPhase {s t : State} (ha : s.timerAlone = none) (hline : LineFollowsPhase s)
    (h : step s = .next t) : LineFollowsPhase t := by
  obtain ⟨-, rfl⟩ | ⟨hr, -, rfl⟩ | ⟨-, -, hedge⟩ := step_block_cases ha h
  · rfl
  · exact commandResult_lineFollowsPhase hline hr
  · exact hedge.lineFollowsPhase hline

/-- So does every run of edges. -/
theorem runEdges_lineFollowsPhase {k : Nat} {s t : State} (hinv : BlockInv s) (h : runEdges k s = .next t) :
    LineFollowsPhase t := by
  have hkept : t.timerAlone = none ∧ LineFollowsPhase t :=
    runEdges_keeps (P := fun u => u.timerAlone = none ∧ LineFollowsPhase u)
      (fun _ _ ⟨ha, hline⟩ hu => ⟨step_timerAlone ha hu, step_lineFollowsPhase ha hline hu⟩)
      ⟨hinv.inBlock, hinv.lineFollowsPhase⟩ h
  exact hkept.2

/-- What a state with the line's registers in step drives. -/
theorem LineFollowsPhase.driven_eq {s : State} (h : LineFollowsPhase s) :
    s.driven = if s.st.drive.1 then some s.st.drive.2 else none := by
  rw [← h]
  rfl

/-- `line_oe` = 1 says that something is driven (R34, R39). -/
theorem lineOe_iff (s : State) : s.lineOe = true ↔ s.driven ≠ none := by
  simp [State.lineOe, State.driven]

/-- Settles O46: the line's registers follow `ST` along every run, and `ST` then says what is driven. -/
theorem lineDrivenOnlyInTheRequestPhase : Obligations.LineDrivenOnlyInTheRequestPhase := by
  intro k s t hinv h
  have hdriven := (runEdges_lineFollowsPhase hinv h).driven_eq
  refine ⟨?_, ?_, ?_, lineOe_iff t⟩ <;> rw [hdriven] <;> cases t.st <;> simp [Phase.drive]

end Sys2Proof.Machine
end

section
/-! The encodings of `30_encoding.md`: the fields of a command word and of a request word as numbers, the words put
together again from their fields, and what an edge does with a command that is held. -/

namespace Sys2Proof.Machine

/-! ### The command word (R90) -/

/-- Field `op` is the word's quotient by 256. -/
theorem cmdOpField_toNat (w : CmdWord) : (cmdOpField w).toNat = w.toNat / 256 := by
  rw [cmdOpField, BitVec.extractLsb'_toNat, Nat.shiftRight_eq_div_pow]
  exact Nat.mod_eq_of_lt (by have := w.isLt; omega)

/-- The value of `op` in a word with a known quotient by 256. -/
theorem cmdOpField_eq_of_toNat {w : CmdWord} {op : BitVec 2} (h : w.toNat / 256 = op.toNat) : cmdOpField w = op :=
  BitVec.eq_of_toNat_eq ((cmdOpField_toNat w).trans h)

/-- Field `arg` is the word's low byte. -/
theorem cmdArgField_eq_ofNat (w : CmdWord) : cmdArgField w = BitVec.ofNat 8 w.toNat := rfl

/-- A command word is its two fields. -/
theorem cmdWord_fields (w : CmdWord) : cmdWord (cmdOpField w) (cmdArgField w) = w := by
  apply BitVec.eq_of_getLsbD_eq
  intro i hi
  rw [cmdWord_getLsbD, cmdOpField, cmdArgField, BitVec.getLsbD_extractLsb', BitVec.getLsbD_extractLsb']
  split
  · simp [*]
  · simp [show i - 8 < 2 by omega, show 8 + (i - 8) = i by omega]

/-- What the decoder reads from a command word, by the word's quotient by 256 (R91). -/
theorem decode_cmd (w : CmdWord) {op : BitVec 2} (h : w.toNat / 256 = op.toNat) :
    decode (.cmd w) =
      .ok (if op = 0b00#2 then .cfgPin (cmdArgField w) else if op = 0b01#2 then .read
        else if op = 0b10#2 then .getHum else .getTemp) := by
  rw [decode, decodeCmd, cmdOpField_eq_of_toNat h]

/-- Settles O4: `op` is the quotient by 256 and selects one arm of the decoder; a CFGPIN word is put together again
from its fields. -/
theorem everyCommandWordDecodes : Obligations.EveryCommandWordDecodes := by
  intro w
  refine ⟨fun h => ⟨decode_cmd w (op := 0b00#2) h, ?_⟩, decode_cmd w (op := 0b01#2), rfl,
    decode_cmd w (op := 0b10#2), rfl, decode_cmd w (op := 0b11#2), rfl⟩
  rw [encode, ← cmdArgField_eq_ofNat, ← cmdOpField_eq_of_toNat (op := 0b00#2) h, cmdWord_fields]

/-! ### The request word (R93, R98) -/

/-- Field `T` is the word's remainder by 2^15. -/
theorem ptTimeoutField_toNat (w : PtWord) : (ptTimeoutField w).toNat = w.toNat % 32768 := by
  rw [ptTimeoutField, BitVec.extractLsb'_toNat, Nat.shiftRight_zero]

/-- Field `L` says whether the word is at least 2^15. -/
theorem ptLevelField_eq_decide (w : PtWord) : ptLevelField w = decide (32768 ≤ w.toNat) :=
  (BitVec.msb_eq_getLsbD_last w).symm.trans (BitVec.msb_eq_decide w)

/-- A request word is its two fields. -/
theorem ptWord_fields (w : PtWord) : ptWord (ptLevelField w) (ptTimeoutField w) = w := by
  apply BitVec.eq_of_getLsbD_eq
  intro i hi
  rw [ptWord_getLsbD, ptLevelField, ptTimeoutField, BitVec.getLsbD_extractLsb']
  split
  · simp [*]
  · simp [show i = 15 by omega]

/-- The legal timeout fields, by the word's remainder by 2^15 (R98). -/
theorem timeoutLegal_ptTimeoutField_iff (w : PtWord) :
    timeoutLegal (ptTimeoutField w) = true ↔ w.toNat % 32768 ≤ 32766 := by
  rw [timeoutLegal, decide_eq_true_iff, ptTimeoutField_toNat]

theorem decode_pt_of_legal {w : PtWord} (h : timeoutLegal (ptTimeoutField w) = true) :
    decode (.pt w) = .ok (.measure (ptLevelField w) (ptTimeoutField w)) :=
  if_pos h

theorem decode_pt_of_not_legal {w : PtWord} (h : ¬timeoutLegal (ptTimeoutField w) = true) :
    decode (.pt w) = .error .timeoutOperand :=
  if_neg h

theorem exec_measure_of_legal (level : Level) {timeout : Count} (h : timeoutLegal timeout = true) (s : State) :
    exec (.measure level timeout) s = .next (s.measureEdge level timeout) :=
  if_pos h

theorem exec_measure_of_not_legal (level : Level) {timeout : Count} (h : ¬timeoutLegal timeout = true) (s : State) :
    exec (.measure level timeout) s = .refused .timeoutOperand :=
  if_neg h

/-- The first edge of a measurement with `T` = 0: the sample alone decides between the timeout and the duration 0
(R98). -/
theorem State.measureEdge_zero_ptres (level : Level) {s : State} (hc : s.cnt = 0#15) :
    (s.measureEdge level 0#15).ptres = if s.lineSample = level then some .timeout else some (.duration 0#15) := by
  by_cases hs : s.lineSample = level
  · rw [State.measureEdge_timeout hs (by simp), if_pos hs]
  · rw [State.measureEdge_of_ne _ hs, if_neg hs, hc]

/-- Settles O5: the fields of the word decide whether decoder and MEASURE refuse; with `T` = 0 the first sample
decides. -/
theorem requestWordFields : Obligations.RequestWordFields := by
  refine ⟨fun w => ⟨fun h => ?_, fun h => ?_⟩, fun level s hc => ?_⟩
  · exact ⟨_, _, ptLevelField_eq_decide w, ptTimeoutField_toNat w,
      decode_pt_of_legal ((timeoutLegal_ptTimeoutField_iff w).mpr h), congrArg Encoded.pt (ptWord_fields w)⟩
  · have hw : ¬timeoutLegal (ptTimeoutField w) = true := by rw [timeoutLegal_ptTimeoutField_iff]; omega
    exact ⟨decode_pt_of_not_legal hw, exec_measure_of_not_legal _ hw⟩
  · exact ⟨_, exec_measure_of_legal level (by decide) s, State.measureEdge_zero_ptres level hc⟩

/-! ### A held command (R103) -/

/-- The state with `cmd_valid` = 0 at its next edge; every other input, and every register, is as it was. -/
def State.withoutCommand (s : State) : State :=
  { s with inputs := { s.input with cmdValid := false } :: s.inputs.tail }

/-- Readiness does not look at `cmd_valid` (R121). -/
theorem State.withoutCommand_cmdReady (s : State) : s.withoutCommand.cmdReady = s.cmdReady := rfl

/-- With no command accepted, the edge is the micro-operation's alone. -/
theorem blockResult_held {s : State} (h : s.cmdReady = false) :
    blockResult s = (microResult s.st s.beginEdge).endEdge := by
  rw [blockResult, commandResult_held h]

/-- The micro-operation of an edge, and what the edge leaves, are the same with `cmd_valid` = 0. -/
theorem microResult_endEdge_withoutCommand (p : Phase) (s : State) :
    (microResult p s.withoutCommand.beginEdge).endEdge = (microResult p s.beginEdge).endEdge := by
  have hwires : microResult p s.withoutCommand.beginEdge =
      { microResult p s.beginEdge with inputs := s.withoutCommand.inputs, accepted := false, rdata := 0#8 } :=
    microResult_wires p s.beginEdge s.withoutCommand.inputs false 0#8 rfl
  rw [hwires]
  simp [State.endEdge, State.withoutCommand]

/-- Settles O17: neither of the two edges has an accepted command, and the rest of an edge does not look at the
command port. -/
theorem heldCommandHasNoEffect : Obligations.HeldCommandHasNoEffect := by
  intro s ha hheld
  show step s = step s.withoutCommand
  cases hp : legalParams s.params with
  | false => rw [step_of_illegalParams hp, step_of_illegalParams (s := s.withoutCommand) hp]
  | true =>
    cases hr : s.input.rst with
    | true =>
      rw [step_reset hp hr, step_reset (s := s.withoutCommand) hp hr]
      rfl
    | false =>
      rw [step_block hp hr ha, step_block (s := s.withoutCommand) hp hr ha, blockResult_held hheld,
        blockResult_held (s.withoutCommand_cmdReady.trans hheld), microResult_endEdge_withoutCommand]
      rfl

end Sys2Proof.Machine
end

section
/-! The host commands of `40_host_commands.md`: when each is accepted, what it then writes, and what an edge shows on
the command port's answer. -/

namespace Sys2Proof.Machine

/-! ### The table of acceptance (R121) -/

theorem accept_cfgPin_iff (s : State) : accept 0b00#2 s = true ↔ s.st = .idle :=
  decide_eq_true_iff

theorem accept_read_iff (s : State) : accept 0b01#2 s = true ↔ s.st = .idle ∧ s.cfg = true := by
  simp [accept]

theorem accept_getHum (s : State) : accept 0b10#2 s = true := rfl

theorem accept_getTemp (s : State) : accept 0b11#2 s = true := rfl

/-! ### The commands, accepted and held -/

theorem exec_cfgPin_accepted (n : Byte) {s : State} (h : s.st = .idle) :
    exec (.cfgPin n) s = .next { s with pin := n, cfg := true, accepted := true, rdata := 0#8 } :=
  if_pos ((accept_cfgPin_iff s).mpr h)

theorem exec_cfgPin_held (n : Byte) {s : State} (h : s.st ≠ .idle) :
    exec (.cfgPin n) s = .next { s with accepted := false, rdata := 0#8 } :=
  if_neg (mt (accept_cfgPin_iff s).mp h)

theorem exec_read_accepted {s : State} (hst : s.st = .idle) (hcfg : s.cfg = true) :
    exec .read s = .next
      { s with
        st := .reqLow, oe := true, out := false, cnt := 0#15, bitidx := 0, done := false
        accepted := true, rdata := 0#8 } :=
  if_pos ((accept_read_iff s).mpr ⟨hst, hcfg⟩)

theorem exec_read_held {s : State} (h : ¬(s.st = .idle ∧ s.cfg = true)) :
    exec .read s = .next { s with accepted := false, rdata := 0#8 } :=
  if_neg (mt (accept_read_iff s).mp h)

theorem exec_getHum (s : State) : exec .getHum s = .next { s with accepted := true, rdata := s.hum } :=
  rfl

theorem exec_getTemp (s : State) : exec .getTemp s = .next { s with accepted := true, rdata := s.temp } :=
  rfl

/-- A word of the command port below 256 is the CFGPIN of its low byte (R122). -/
theorem decode_cfgPin_word (n : Byte) : decode (.cmd (BitVec.ofNat 10 n.toNat)) = .ok (.cfgPin n) := by
  have hn : n.toNat < 256 := n.isLt
  have hword : (BitVec.ofNat 10 n.toNat).toNat = n.toNat := by
    rw [BitVec.toNat_ofNat]
    omega
  have hop : (BitVec.ofNat 10 n.toNat).toNat / 256 = (0b00#2).toNat := by
    rw [hword]
    exact Nat.div_eq_of_lt hn
  rw [decode_cmd _ hop, if_pos rfl, cmdArgField_eq_ofNat, hword, BitVec.ofNat_toNat, BitVec.setWidth_eq]

/-- Settles O12: the word decodes to CFGPIN, and `ST` = IDLE decides whether it is accepted. -/
theorem cfgPinSelectsTheLine : Obligations.CfgPinSelectsTheLine := fun n =>
  ⟨decode_cfgPin_word n, fun _ => ⟨exec_cfgPin_accepted n, exec_cfgPin_held n⟩⟩

/-- Settles O13: the word decodes to READ, and `ST` = IDLE with `CFG` = 1 decides whether it is accepted. -/
theorem readStartsAnAttempt : Obligations.ReadStartsAnAttempt :=
  ⟨decode_cmd 0x100#10 (op := 0b01#2) rfl, fun _ => ⟨exec_read_accepted, exec_read_held⟩⟩

/-- Settles O14: the word decodes to GETHUM, which is accepted in every state. -/
theorem getHumAnswersTheHumidity : Obligations.GetHumAnswersTheHumidity :=
  ⟨decode_cmd 0x200#10 (op := 0b10#2) rfl, fun s => ⟨exec_getHum s, rfl⟩⟩

/-- Settles O15: the word decodes to GETTEMP, which is accepted in every state. -/
theorem getTempAnswersTheTemperature : Obligations.GetTempAnswersTheTemperature :=
  ⟨decode_cmd 0x300#10 (op := 0b11#2) rfl, fun s => ⟨exec_getTemp s, rfl⟩⟩

/-- Settles O16: the table of acceptance, and the two commands that it can hold. -/
theorem commandAcceptance : Obligations.CommandAcceptance :=
  ⟨fun s => ⟨accept_cfgPin_iff s, accept_read_iff s, accept_getHum s, accept_getTemp s⟩,
    fun n _ => exec_cfgPin_held n, fun _ => exec_read_held⟩

/-! ### The port `rdata` (R126) -/

theorem State.rdataPort_getHum {s : State} (hacc : s.accepting = true) (hop : s.input.cmdOp = 0b10#2) :
    s.rdataPort = s.hum := by
  simp [State.rdataPort, hacc, hop]

theorem State.rdataPort_getTemp {s : State} (hacc : s.accepting = true) (hop : s.input.cmdOp = 0b11#2) :
    s.rdataPort = s.temp := by
  simp [State.rdataPort, hacc, hop]

/-- Where neither GETHUM nor GETTEMP is accepted, `rdata` is 0 (R126). -/
theorem State.rdataPort_eq_zero {s : State}
    (h : ¬(s.accepting = true ∧ (s.input.cmdOp = 0b10#2 ∨ s.input.cmdOp = 0b11#2))) : s.rdataPort = 0#8 := by
  obtain ⟨hhum, htemp⟩ := not_or.mp (mt and_or_left.mpr h)
  simp [State.rdataPort, hhum, htemp]

/-- At a reset edge no command is accepted (R120). -/
theorem State.accepting_of_reset {s : State} (hr : s.input.rst = true) : s.accepting = false := by
  simp [State.accepting, hr]

/-- A command that is accepted is presented (R120). -/
theorem State.cmdValid_of_accepting {s : State} (h : s.accepting = true) : s.input.cmdValid = true := by
  simp only [State.accepting, Bool.and_eq_true] at h
  obtain ⟨⟨-, hv⟩, -⟩ := h
  exact hv

/-! ### The recorded wires (log 5) -/

/-- The four values of `op` (R91). -/
theorem cmdOp_cases (op : BitVec 2) : op = 0b00#2 ∨ op = 0b01#2 ∨ op = 0b10#2 ∨ op = 0b11#2 := by
  revert op
  decide

/-- An edge at which no command is accepted is one with no command: none is presented, or it is held (R121). -/
theorem commandResult_of_not_accepting {s : State} (hr : s.input.rst = false) (h : s.accepting = false) :
    commandResult s = s.beginEdge := by
  cases hv : s.input.cmdValid with
  | false => simp [commandResult, hv]
  | true => exact commandResult_held (by simpa [State.accepting, hr, hv] using h)

/-- What an accepted GETHUM does (R124). -/
theorem commandResult_getHum {s : State} (hop : s.input.cmdOp = 0b10#2) (h : s.accepting = true) :
    commandResult s = s.beginEdge.respond true s.hum := by
  simp [commandResult, State.cmdValid_of_accepting h, hop]

/-- What an accepted GETTEMP does (R125). -/
theorem commandResult_getTemp {s : State} (hop : s.input.cmdOp = 0b11#2) (h : s.accepting = true) :
    commandResult s = s.beginEdge.respond true s.temp := by
  simp [commandResult, State.cmdValid_of_accepting h, hop]

/-- The command of an edge drives the two wires as the port functions say (R120, R126). -/
theorem commandResult_wires {s : State} (hr : s.input.rst = false) :
    (commandResult s).accepted = s.accepting ∧ (commandResult s).rdata = s.rdataPort := by
  cases hacc : s.accepting with
  | false =>
    rw [commandResult_of_not_accepting hr hacc, State.rdataPort_eq_zero (by simp [hacc])]
    exact ⟨rfl, rfl⟩
  | true =>
    obtain hop | hop | hop | hop := cmdOp_cases s.input.cmdOp
    · rw [commandResult_cfgPin hop hacc, State.rdataPort_eq_zero (by simp [hop])]
      exact ⟨rfl, rfl⟩
    · rw [commandResult_read hop hacc, State.rdataPort_eq_zero (by simp [hop])]
      exact ⟨rfl, rfl⟩
    · rw [commandResult_getHum hop hacc, State.rdataPort_getHum hacc hop]
      exact ⟨rfl, rfl⟩
    · rw [commandResult_getTemp hop hacc, State.rdataPort_getTemp hacc hop]
      exact ⟨rfl, rfl⟩

/-- After any edge of the block the recorded wires are the port functions of the pre-edge state: reset accepts nothing,
and of the other edges only the command drives them. -/
theorem step_wires {s t : State} (ha : s.timerAlone = none) (h : step s = .next t) :
    t.accepted = s.accepting ∧ t.rdata = s.rdataPort := by
  obtain ⟨hr, rfl⟩ | ⟨hr, rfl⟩ := step_inBlock_cases ha h
  · have hacc := State.accepting_of_reset hr
    exact ⟨hacc.symm, (State.rdataPort_eq_zero (by simp [hacc])).symm⟩
  · simpa [blockResult] using commandResult_wires hr

/-- Settles O18: the wires of the edge are the port functions, and the port `rdata` is `HUM`, `TEMP` or 0. -/
theorem rdataIsCombinational : Obligations.RdataIsCombinational := by
  intro s t ha h
  obtain ⟨hacc, hrdata⟩ := step_wires ha h
  rw [hacc, hrdata]
  exact ⟨rfl, State.rdataPort_getHum, State.rdataPort_getTemp, State.rdataPort_eq_zero, rfl⟩

end Sys2Proof.Machine
end

section
/-! The sequencer of `42_protocol_driver.md`: one edge in each of its states. The four measuring states share one shape
(`State.measuring`), so what a measurement can do there is said once, for every completion. -/

namespace Sys2Proof.Machine

/-! ### IDLE (R162) -/

/-- The block's registers and its configuration: the state without the inputs, the edge count and the wires. -/
def State.registers (s : State) : State :=
  { s with inputs := [], edge := 0, accepted := false, rdata := 0#8, ptres := none }

/-- What surrounds an edge touches no register. -/
theorem State.registers_beginEdge_endEdge (s : State) : s.beginEdge.endEdge.registers = s.registers := by
  simp [State.registers, State.endEdge, State.beginEdge]

theorem State.st_eq_of_registers {s t : State} (h : t.registers = s.registers) : t.st = s.st :=
  (congrArg State.st h :)

/-- An edge in IDLE with no command does nothing but surround itself. -/
theorem step_idle_of_no_command {s : State} (h : Running s) (hst : s.st = .idle) (hr : s.input.rst = false)
    (hv : s.input.cmdValid = false) : step s = .next s.beginEdge.endEdge := by
  have hacc : s.accepting = false := by simp [State.accepting, hv]
  rw [step_block h.params hr h.inBlock, blockResult_idle hst, commandResult_of_not_accepting hr hacc]

/-- Any number of such edges keeps every register. -/
theorem runEdges_idle_registers {k : Nat} {s : State} (h : Running s) (hst : s.st = .idle) (hr : NoReset k s)
    (hv : ∀ j < k, (s.inputAt j).cmdValid = false) :
    ∃ t, runEdges k s = .next t ∧ t.registers = s.registers := by
  induction k generalizing s with
  | zero => exact ⟨s, runEdges_zero s, rfl⟩
  | succ k ih =>
    have hs := step_idle_of_no_command h hst (hr 0 k.succ_pos) (hv 0 k.succ_pos)
    have hrun : Running s.beginEdge.endEdge := ⟨h.params, step_timerAlone h.inBlock hs⟩
    have hr' : NoReset k s.beginEdge.endEdge := fun j hj => by
      rw [step_inputAt hs]
      exact hr _ (Nat.succ_lt_succ hj)
    obtain ⟨t, ht, hreg⟩ := ih hrun hst hr' fun j hj => by
      rw [step_inputAt hs]
      exact hv _ (Nat.succ_lt_succ hj)
    exact ⟨t, (runEdges_step k hs).trans ht, hreg.trans s.registers_beginEdge_endEdge⟩

/-- Settles O23: the registers by induction on the number of edges, the line by the state that they leave. -/
theorem idleHoldsEveryRegister : Obligations.IdleHoldsEveryRegister := by
  intro k s hp ha hst hr hv
  obtain ⟨t, ht, hreg⟩ := runEdges_idle_registers ⟨hp, ha⟩ hst hr hv
  refine ⟨rfl, t, ht, fun hinv => ?_, hreg⟩
  rw [(runEdges_lineFollowsPhase hinv ht).driven_eq, State.st_eq_of_registers hreg, hst]
  rfl

/-! ### REQ_LOW and REQ_HIGH (R165, R167) -/

/-- Settles O24: in a legal configuration the count alone decides. -/
theorem requestLowEdge : Obligations.RequestLowEdge := fun s hp => by
  have hexec : exec .reqLow s = .next (microResult .reqLow s) := exec_microOp .reqLow hp
  exact ⟨fun hc => hexec.trans (congrArg _ (if_pos hc)), fun hc => hexec.trans (congrArg _ (if_neg hc))⟩

/-- Settles O25: in a legal configuration the count alone decides. -/
theorem requestHighEdge : Obligations.RequestHighEdge := fun s hp => by
  have hexec : exec .reqHigh s = .next (microResult .reqHigh s) := exec_microOp .reqHigh hp
  exact ⟨fun hc => hexec.trans (congrArg _ (if_pos hc)), fun hc => hexec.trans (congrArg _ (if_neg hc))⟩

/-! ### The measuring states whose completion is a handover (R169, R171, R173) -/

/-- A measuring state that completes with a handover has the edge rule of R168. -/
theorem measuringEdge_of_handover {p next : Phase} {level : Level} {timeout : Count}
    (hreq : p.ptreq = some (ptWord level timeout))
    (hexec : ∀ s, exec p.instr s = .next (s.measuring level timeout fun _ t => t.handover next)) :
    MeasuringEdge p.instr level timeout.toNat next := by
  refine ⟨⟨p, rfl, by rw [hreq, BitVec.ofNat_toNat, BitVec.setWidth_eq]⟩, fun s => ?_⟩
  rw [hexec s]
  refine ⟨fun hs => ?_, fun hs hc => ?_, fun hs hc => ?_⟩
  · rw [State.measuring_of_ne timeout _ hs, State.handover]
  · rw [State.measuring_count _ hs hc]
  · rw [State.measuring_timeout _ hs hc, State.raiseTimeout]

/-- Settles O26: ACK_LOW is a measuring state that hands over to ACK_HIGH. -/
theorem ackLowEdge : Obligations.AckLowEdge :=
  measuringEdge_of_handover (p := .ackLow) (timeout := Config.tAckLow) rfl fun _ => rfl

/-- Settles O27: ACK_HIGH is a measuring state that hands over to BIT_LOW. -/
theorem ackHighEdge : Obligations.AckHighEdge :=
  measuringEdge_of_handover (p := .ackHigh) (timeout := Config.tAckHigh) rfl fun _ => rfl

/-- Settles O28: BIT_LOW is a measuring state that hands over to BIT_HIGH. -/
theorem bitLowEdge : Obligations.BitLowEdge :=
  measuringEdge_of_handover (p := .bitLow) (timeout := Config.tBitLow) rfl fun _ => rfl

/-! ### BIT_HIGH (R175, R176) -/

/-- The completion of the last bit: VALIDATE is next, and `BITIDX` stays. -/
theorem completeBit_last (d : Count) {s : State} (h : s.bitidx.val = 39) :
    completeBit d s =
      { s with frame := s.frame.writeBit s.bitidx (decideBit d), st := .validate, cnt := 0#15 } :=
  dif_pos h

/-- The completion of every other bit: the next one is next, with the handover. -/
theorem completeBit_next (d : Count) {s : State} (h : s.bitidx.val + 1 < 40) :
    completeBit d s =
      { s with
        frame := s.frame.writeBit s.bitidx (decideBit d), bitidx := ⟨s.bitidx.val + 1, h⟩
        st := .bitLow, cnt := 1#15 } :=
  dif_neg (by omega)

/-- A low sample in BIT_HIGH runs the completion on the count. -/
theorem exec_bitHigh_low {s : State} (hs : s.lineSample = false) :
    exec .bitHigh s = .next (completeBit s.cnt { s with ptres := some (.duration s.cnt) }) :=
  congrArg _ (State.measuring_of_ne Config.tBitHigh completeBit (by simp [hs]))

/-- Settles O29: a low sample completes the bit, whose store touches data bit `BITIDX` alone; a high sample is counted
or raises Timeout. -/
theorem bitHighEdge : Obligations.BitHighEdge := by
  refine ⟨rfl, fun s => ⟨fun hs => ?_, fun hs hc => ?_, fun hs hc => ?_⟩⟩
  · refine ⟨s.frame.writeBit s.bitidx (decideBit s.cnt), ?_, fun n hn => Frame.bit_writeBit_ne _ _ hn,
      fun hlast => ?_, fun hnext => ?_⟩
    · rw [Frame.bit_writeBit_same, decideBit_eq rfl]
    · rw [exec_bitHigh_low hs, completeBit_last (s := { s with ptres := some (.duration s.cnt) }) _ hlast]
    · rw [exec_bitHigh_low hs, completeBit_next (s := { s with ptres := some (.duration s.cnt) }) _ hnext]
  · exact congrArg _ (State.measuring_count (timeout := Config.tBitHigh) completeBit hs hc)
  · exact congrArg _ (State.measuring_timeout (timeout := Config.tBitHigh) completeBit hs hc)

/-! ### Each measuring state is the MEASURE of its request word (R168) -/

section
variable {s : State} {level : Level} {timeout : Count} {complete : Count → State → State}

/-- While the measurement has no result the state's edge is the measurement's. -/
theorem State.measuring_of_no_result (h : (s.measureEdge level timeout).ptres = none) :
    s.measuring level timeout complete = s.measureEdge level timeout := by
  rw [State.measuring, h]

/-- The timeout signal of the measurement raises Timeout. -/
theorem State.measuring_of_timeout_result (h : (s.measureEdge level timeout).ptres = some .timeout) :
    s.measuring level timeout complete = (s.measureEdge level timeout).raiseTimeout := by
  rw [State.measuring, h]

/-- The duration that the measurement answers is handed to the completion. -/
theorem State.measuring_of_duration_result {d : Count}
    (h : (s.measureEdge level timeout).ptres = some (.duration d)) :
    s.measuring level timeout complete = complete d (s.measureEdge level timeout) := by
  rw [State.measuring, h]

/-- The only duration that a measurement answers is the count (R142). -/
theorem State.measureEdge_duration_eq_cnt {d : Count}
    (h : (s.measureEdge level timeout).ptres = some (.duration d)) : d = s.cnt := by
  by_cases hs : s.lineSample = level
  · by_cases ht : timeout.toNat < s.cnt.toNat + 1
    · rw [State.measureEdge_timeout hs ht] at h
      cases h
    · rw [State.measureEdge_count hs (Nat.not_lt.mp ht)] at h
      cases h
  · rw [State.measureEdge_of_ne timeout hs] at h
    cases h
    rfl

end

/-- How a measurement that answered a duration leaves the block: with a handover to the next measuring state, or in
VALIDATE (R148, R176). -/
def MeasurementEnded (t : State) : Prop :=
  (t.cnt = 1#15 ∧ (t.st = .ackHigh ∨ t.st = .bitLow ∨ t.st = .bitHigh)) ∨ (t.cnt = 0#15 ∧ t.st = .validate)

theorem completeBit_measurementEnded (d : Count) (s : State) : MeasurementEnded (completeBit d s) := by
  by_cases h : s.bitidx.val = 39
  · rw [completeBit_last d h]
    exact .inr ⟨rfl, rfl⟩
  · rw [completeBit_next d (by omega)]
    exact .inl ⟨rfl, .inr (.inl rfl)⟩

/-- An edge of state `p` is that of MEASURE(`timeout`, `level`), but for what R168 does with the answer. -/
def RunsMeasure (p : Phase) (level : Level) (timeout : Count) : Prop :=
  ∀ s : State, ∃ m, exec (.measure level timeout) s = .next m ∧
    (m.ptres = none → exec p.instr s = .next m) ∧
    (m.ptres = some .timeout → exec p.instr s = .next m.raiseTimeout) ∧
    (∀ d, m.ptres = some (.duration d) → d = s.cnt ∧ ∃ t, exec p.instr s = .next t ∧ MeasurementEnded t)

/-- Every state of the measuring shape runs its MEASURE. -/
theorem runsMeasure_of_measuring {p : Phase} {level : Level} {timeout : Count} {complete : Count → State → State}
    (hlegal : timeoutLegal timeout = true)
    (hexec : ∀ s, exec p.instr s = .next (s.measuring level timeout complete))
    (hend : ∀ d s, MeasurementEnded (complete d s)) : RunsMeasure p level timeout := by
  intro s
  rw [hexec s]
  refine ⟨_, exec_measure_of_legal level hlegal s, fun h => ?_, fun h => ?_, fun d h => ?_⟩
  · rw [State.measuring_of_no_result h]
  · rw [State.measuring_of_timeout_result h]
  · exact ⟨State.measureEdge_duration_eq_cnt h, _, rfl, State.measuring_of_duration_result h ▸ hend d _⟩

/-- Settles O21: each of the four measuring states is of the measuring shape with the operands of its request word. -/
theorem measuringStatesRunTheirRequest : Obligations.MeasuringStatesRunTheirRequest := by
  intro p w hw
  cases p with
  | ackLow =>
    cases hw
    exact ⟨false, Config.tAckLow, rfl,
      runsMeasure_of_measuring rfl (fun _ => rfl) fun _ _ => .inl ⟨rfl, .inl rfl⟩⟩
  | ackHigh =>
    cases hw
    exact ⟨true, Config.tAckHigh, rfl,
      runsMeasure_of_measuring rfl (fun _ => rfl) fun _ _ => .inl ⟨rfl, .inr (.inl rfl)⟩⟩
  | bitLow =>
    cases hw
    exact ⟨false, Config.tBitLow, rfl,
      runsMeasure_of_measuring rfl (fun _ => rfl) fun _ _ => .inl ⟨rfl, .inr (.inr rfl)⟩⟩
  | bitHigh =>
    cases hw
    exact ⟨true, Config.tBitHigh, rfl,
      runsMeasure_of_measuring rfl (fun _ => rfl) completeBit_measurementEnded⟩
  | idle | reqLow | reqHigh | validate => cases hw

/-! ### VALIDATE (R179) -/

/-- The checksum test is R179's comparison with the low 8 bits of the exact sum. -/
theorem Frame.checksum_matches_iff (f : Frame) :
    f.b4 = f.checksum ↔ f.b4.toNat = (f.b0.toNat + f.b1.toNat + f.b2.toNat + f.b3.toNat) % 256 := by
  rw [← f.checksum_toNat, BitVec.toNat_inj]

/-- Settles O31: the checksum test decides which of the two outcomes is written. -/
theorem validateEdge : Obligations.ValidateEdge := fun s =>
  ⟨fun h => if_pos (s.frame.checksum_matches_iff.mpr h), fun h => if_neg (mt s.frame.checksum_matches_iff.mp h)⟩

end Sys2Proof.Machine
end

section
/-! The abort of `60_exceptions.md` (R211): what the edge at which a measuring state times out leaves behind. -/

namespace Sys2Proof.Machine

/-- The request word of a measuring state has the level and the bound of its measurement as fields (R95). -/
theorem measurement_of_ptreq {p : Phase} {w : PtWord} (hw : p.ptreq = some w) :
    measurement p = some (ptLevelField w, (ptTimeoutField w).toNat) := by
  cases p with
  | ackLow | ackHigh | bitLow | bitHigh => cases hw; rfl
  | idle | reqLow | reqHigh | validate => cases hw

/-- In each measuring state a matching sample past the bound of the request word raises Timeout (R168). -/
theorem microResult_timeout {p : Phase} {w : PtWord} {s : State} (hw : p.ptreq = some w)
    (hs : s.lineSample = ptLevelField w) (hc : (ptTimeoutField w).toNat < s.cnt.toNat + 1) :
    microResult p s = { s with ptres := some .timeout : State }.raiseTimeout := by
  cases p with
  | ackLow | ackHigh | bitLow | bitHigh => cases hw; rw [microResult]; exact State.measuring_timeout _ hs hc
  | idle | reqLow | reqHigh | validate => cases hw

/-- The edge that times out is `raise Timeout` on the pre-edge registers, whatever command is presented (R211). -/
theorem blockResult_timeout {s : State} {w : PtWord} (hw : s.st.ptreq = some w)
    (hs : s.lineSample = ptLevelField w) (hc : (ptTimeoutField w).toNat < s.cnt.toNat + 1) :
    blockResult s = { busyState s with ptres := some .timeout : State }.raiseTimeout.endEdge := by
  obtain ⟨hbusy, -⟩ := not_idle_or_validate_of_measurement (measurement_of_ptreq hw)
  rw [blockResult_busy hbusy, microResult_timeout (s := busyState s) hw hs hc]

/-- A measuring state that meets the invariant does not drive the line (R47, R62). -/
theorem BlockInv.oe_eq_false_of_measurement {s : State} {m : Level × Nat} (h : BlockInv s)
    (hm : measurement s.st = some m) : s.oe = false :=
  congrArg Prod.fst (h.lineFollowsPhase.trans (drive_of_measurement hm))

/-- Settles O33: the edge is `raise Timeout` on the pre-edge registers, and a measuring state leaves the line
released. -/
theorem timeoutAbortsTheAttempt : Obligations.TimeoutAbortsTheAttempt := by
  intro s w hp ha hr hw hs hc
  refine ⟨_, (step_block hp hr ha).trans (congrArg _ (blockResult_timeout hw hs hc)), ?_⟩
  exact ⟨rfl, rfl, rfl, rfl, rfl, rfl, rfl, rfl, rfl, rfl, rfl, rfl, rfl,
    fun hinv => hinv.oe_eq_false_of_measurement (measurement_of_ptreq hw)⟩

end Sys2Proof.Machine
end

section
/-! The words of `30_encoding.md`: each operation is read back from its encoding, each code of `ST` is a state's, and
the fields of the timer's result word. -/

namespace Sys2Proof.Machine

/-! ### The codes of `ST` (R25, R95) -/

/-- The code of a state selects its micro-operation (R95). -/
theorem Phase.decode_code (p : Phase) : decode (.seq p.code) = .ok p.instr := by cases p <;> rfl

/-- The micro-operation encodes to the code of its state. -/
theorem Phase.encode_instr (p : Phase) : encode p.instr = .seq p.code := by cases p <;> rfl

/-- It is the micro-operation of no other state. -/
theorem Phase.phaseOf_instr (p : Phase) : phaseOf p.instr = some p := by cases p <;> rfl

/-- All eight values of `ST` are used (R25). -/
theorem exists_phase_of_code (w : StCode) : ∃ p : Phase, p.code = w :=
  ⟨(phaseOf (decodeSeq w)).getD .idle, by revert w; decide⟩

/-! ### Decode and encode -/

/-- The two fields of a command word of the encoder are read back (R91). -/
theorem decode_cmdWord (op : BitVec 2) (arg : Byte) :
    decode (.cmd (cmdWord op arg)) =
      .ok (if op = 0b00#2 then .cfgPin arg else if op = 0b01#2 then .read
        else if op = 0b10#2 then .getHum else .getTemp) :=
  congrArg Except.ok (decodeCmd_cmdWord op arg)

/-- So are those of a request word with a legal timeout (R98). -/
theorem decode_ptWord (level : Level) {timeout : Count} (h : timeoutLegal timeout = true) :
    decode (.pt (ptWord level timeout)) = .ok (.measure level timeout) := by
  rw [decode_pt_of_legal (by rwa [ptTimeoutField_ptWord]), ptLevelField_ptWord, ptTimeoutField_ptWord]

/-- Settles O3: by the format of each operation; the timeout's range is the one check. -/
theorem decodeOfEncodeIsTheInstruction : Obligations.DecodeOfEncodeIsTheInstruction := by
  intro i hwf
  cases i with
  | cfgPin n => exact decode_cmdWord 0b00#2 n
  | read => exact decode_cmdWord 0b01#2 0#8
  | getHum => exact decode_cmdWord 0b10#2 0#8
  | getTemp => exact decode_cmdWord 0b11#2 0#8
  | measure level timeout => exact decode_ptWord level hwf
  | idle | reqLow | reqHigh | ackLow | ackHigh | bitLow | bitHigh | validate => rfl

/-- Settles O7: every code is a state's, and the state's lemma says the rest; the tables are read off. -/
theorem everyStateCodeSelectsAMicroOperation : Obligations.EveryStateCodeSelectsAMicroOperation := by
  refine ⟨fun w => ?_, rfl, rfl⟩
  obtain ⟨p, rfl⟩ := exists_phase_of_code w
  exact ⟨p, rfl, p.decode_code, p.encode_instr, p.phaseOf_instr⟩

/-- Settles O8: the command words by their quotient by 256, the request words by their timeout field. -/
theorem specWordsDecode : Obligations.SpecWordsDecode :=
  ⟨decode_cmd _ (op := 0b00#2) rfl, decode_cmd _ (op := 0b01#2) rfl, decode_cmd _ (op := 0b01#2) rfl,
    decode_cmd _ (op := 0b10#2) rfl, decode_cmd _ (op := 0b11#2) rfl, decode_pt_of_legal rfl,
    decode_pt_of_legal rfl, decode_pt_of_not_legal (by decide), Phase.ackLow.decode_code,
    Phase.validate.decode_code⟩

/-! ### The result word (R94) -/

/-- The fields of a result word lie where those of a request word do. -/
theorem PtRes.word_duration (k : Nat) (d : Count) : (PtRes.duration d).word k = ptWord false d := rfl

theorem PtRes.word_timeout (k : Nat) : PtRes.timeout.word k = ptWord true (Config.freeTimeoutD k) := rfl

/-- A word with bit 15 clear is the number in its other bits. -/
theorem ptWord_false_toNat (d : Count) : (ptWord false d).toNat = d.toNat := by
  have hbit := ptLevelField_eq_decide (ptWord false d)
  have hfield := ptTimeoutField_toNat (ptWord false d)
  rw [ptLevelField_ptWord, eq_comm, decide_eq_false_iff_not] at hbit
  rw [ptTimeoutField_ptWord] at hfield
  omega

/-- A word with bit 15 set is at least 2^15. -/
theorem le_ptWord_true_toNat (d : Count) : 32768 ≤ (ptWord true d).toNat := by
  have hbit := ptLevelField_eq_decide (ptWord true d)
  rw [ptLevelField_ptWord] at hbit
  exact of_decide_eq_true hbit.symm

/-- MEASURE answers a next state only on a legal operand, and it is the measurement's. -/
theorem exec_measure_eq_next {level : Level} {timeout : Count} {s t : State}
    (h : exec (.measure level timeout) s = .next t) : t = s.measureEdge level timeout := by
  by_cases hl : timeoutLegal timeout = true
  · rw [exec_measure_of_legal level hl] at h
    exact (Host.Outcome.next.inj h).symm
  · rw [exec_measure_of_not_legal level hl] at h
    cases h

/-- A measurement that is not past its bound does not get past it (R143). -/
theorem State.measureEdge_cnt_le {s : State} {timeout : Count} (level : Level) (h : s.cnt.toNat ≤ timeout.toNat) :
    (s.measureEdge level timeout).cnt.toNat ≤ timeout.toNat := by
  unfold State.measureEdge
  split_ifs with hs ht
  · exact h
  · exact (cnt_succ_toNat (Nat.not_lt.mp ht)).trans_le (Nat.not_lt.mp ht)
  · exact h

/-- Settles O6: the words by their fields; the duration that is answered is the count. -/
theorem resultWordFields : Obligations.ResultWordFields := by
  refine ⟨fun k d => ?_, fun k => ?_, fun level timeout s t hc h => ?_⟩
  · rw [PtRes.word_duration, ptWord_false_toNat]
  · rw [PtRes.word_timeout]
    exact le_ptWord_true_toNat _
  · rw [exec_measure_eq_next h]
    exact ⟨s.measureEdge_cnt_le level hc, fun d hd => (State.measureEdge_duration_eq_cnt hd).symm ▸ hc⟩

end Sys2Proof.Machine
end

section
/-! One edge as `42_protocol_driver.md` section 1 has it: the operations that a step runs, that it always answers, what
no edge writes, and that the command and the micro-operation of an edge keep out of each other's way. -/

namespace Sys2Proof.Machine

/-! ### The operations that a step runs (R160) -/

/-- An edge of the block in a legal configuration, as the two operations it runs. -/
theorem step_eq_blockEdge {s : State} (hp : legalParams s.params = true) (hr : s.input.rst = false)
    (ha : s.timerAlone = none) : step s = blockEdge s := by
  simp [step, hp, hr, ha]

/-- An edge of the timer alone on a word that decodes is that operation's (log 6). -/
theorem step_eq_exec_of_timerAlone {s : State} {w : PtWord} {i : Instr} (hp : legalParams s.params = true)
    (hr : s.input.rst = false) (ha : s.timerAlone = some w) (hw : decode (.pt w) = .ok i) :
    step s = andThen (exec i s.beginEdge) fun u => .next u.endEdge := by
  simp [step, hp, hr, ha, timerEdge, show decodePt w = .ok i from hw]

/-- With no command presented the edge is the micro-operation's alone. -/
theorem blockEdge_of_no_command {s : State} (hv : s.input.cmdValid = false) :
    blockEdge s = andThen (exec s.st.instr s.beginEdge) fun u => .next u.endEdge := by
  simp [blockEdge, State.presented, hv, runCommand]

/-- A presented command runs first (log 9). -/
theorem blockEdge_of_command {s : State} (hv : s.input.cmdValid = true) :
    blockEdge s = andThen (exec (decodeCmd (cmdWord s.input.cmdOp s.input.cmdArg)) s.beginEdge) fun t =>
      andThen (exec s.st.instr t) fun u => .next u.endEdge := by
  simp [blockEdge, State.presented, hv, runCommand]

/-- In IDLE the micro-operation does nothing (R162). -/
theorem blockEdge_of_command_idle {s : State} (hv : s.input.cmdValid = true) (hst : s.st = .idle) :
    blockEdge s = andThen (exec (decodeCmd (cmdWord s.input.cmdOp s.input.cmdArg)) s.beginEdge) fun u =>
      .next u.endEdge := by
  rw [blockEdge_of_command hv, hst]
  rfl

/-- The code in `ST` selects the micro-operation of `ST` and no other one. -/
theorem Phase.instr_of_decode {p : Phase} {i : Instr} (h : decode (.seq p.code) = .ok i) : i = p.instr :=
  (Except.ok.inj (p.decode_code.symm.trans h)).symm

/-- Settles O9: an edge of the block by whether a command is presented; an edge of the timer alone. -/
theorem stepRunsTheDecodedOperations : Obligations.StepRunsTheDecodedOperations := by
  refine fun s hp hr => ⟨fun ha i hi => ?_, fun w i ha hw => step_eq_exec_of_timerAlone hp hr ha hw⟩
  rw [Phase.instr_of_decode hi, step_eq_blockEdge hp hr ha]
  refine ⟨blockEdge_of_no_command, fun hv c hc => ?_⟩
  rw [← Except.ok.inj hc]
  exact blockEdge_of_command hv

/-! ### A placed table word (log 11) -/

/-- A placed command word is run alone: it is presented in IDLE. -/
theorem step_placeCommand {s : State} (hp : legalParams s.params = true) (w : CmdWord) :
    step (s.placeCommand w) =
      andThen (exec (decodeCmd w) (s.placeCommand w).beginEdge) fun u => .next u.endEdge := by
  rw [step_eq_blockEdge (s := s.placeCommand w) hp rfl rfl, blockEdge_of_command_idle rfl rfl]
  exact congrArg (fun v => andThen (exec (decodeCmd v) _) _) (cmdWord_fields w)

/-- A placed state code is run alone: no command is presented. -/
theorem step_placeMicroOp {s : State} (hp : legalParams s.params = true) (w : StCode) :
    step (s.placeMicroOp w) =
      andThen (exec (decodeSeq w) (s.placeMicroOp w).beginEdge) fun u => .next u.endEdge := by
  obtain ⟨p, rfl⟩ := exists_phase_of_code w
  have hinstr : decodeSeq p.code = p.instr := Except.ok.inj p.decode_code
  have hst : (s.placeMicroOp p.code).st = p := by rw [State.placeMicroOp, hinstr, p.phaseOf_instr]; rfl
  rw [step_eq_blockEdge (s := s.placeMicroOp p.code) hp rfl rfl, blockEdge_of_no_command rfl, hst, hinstr]

/-- A placed request word is run by the timer alone. -/
theorem step_placeRequest {s : State} (hp : legalParams s.params = true) {w : PtWord} {i : Instr}
    (hw : decode (.pt w) = .ok i) :
    step (s.placeRequest w) = andThen (exec i (s.placeRequest w).beginEdge) fun u => .next u.endEdge :=
  step_eq_exec_of_timerAlone hp rfl rfl hw

/-- A table word that decodes has a port, and the decoder reads the instruction there. -/
theorem exists_port_of_decodeTableWord {nbits w : Nat} {i : Instr} (h : decodeTableWord nbits w = some i) :
    ∃ e, tablePort nbits w = some e ∧ decode e = .ok i := by
  unfold decodeTableWord at h
  cases he : tablePort nbits w with
  | none => rw [he] at h; cases h
  | some e =>
    rw [he] at h
    cases hd : decode e with
    | error r => simp [hd] at h
    | ok j => exact ⟨e, rfl, by simpa [hd] using h⟩

/-- Settles O10: by the port of the word. -/
theorem placedTableWordRuns : Obligations.PlacedTableWordRuns := by
  intro s nbits w i hp hi
  obtain ⟨e, hport, hdecode⟩ := exists_port_of_decodeTableWord hi
  unfold State.withFetchWord
  rw [hport]
  cases e with
  | cmd c => exact Except.ok.inj hdecode ▸ step_placeCommand hp c
  | pt p => exact step_placeRequest hp hdecode
  | seq q => exact Except.ok.inj hdecode ▸ step_placeMicroOp hp q

/-! ### Every edge has a successor (R15, R160) -/

/-- A timeout operand is legal or 32767 (R98). -/
theorem timeoutLegal_iff (t : Count) : timeoutLegal t = true ↔ t.toNat ≤ 32766 := decide_eq_true_iff

/-- The timer alone refuses the operand 32767 (R98). -/
theorem step_timer_refused {s : State} {w : PtWord} (hp : legalParams s.params = true) (hr : s.input.rst = false)
    (ha : s.timerAlone = some w) (hw : ¬timeoutLegal (ptTimeoutField w) = true) :
    step s = .refused .timeoutOperand := by
  simp [step, hp, hr, ha, timerEdge, decodePt, hw]

/-- Settles O34: reset, an edge of the block, and an edge of the timer alone. -/
theorem everyEdgeHasASuccessor : Obligations.EveryEdgeHasASuccessor := by
  refine fun s hp => ⟨fun hlegal => ?_, fun w ha hw hr => step_timer_refused hp hr ha ?_⟩
  · cases hr : s.input.rst with
    | true => exact ⟨_, step_reset hp hr⟩
    | false =>
      cases ha : s.timerAlone with
      | none => exact ⟨_, step_block hp hr ha⟩
      | some w => exact ⟨_, step_timer hp hr ha ((timeoutLegal_iff _).mpr (hlegal w ha))⟩
  · rw [timeoutLegal_iff]
    omega

/-! ### What no edge writes (logs 1, 4, 6) -/

/-- A measurement writes `CNT` and its result and nothing else (R144). -/
@[simp] theorem State.measureEdge_st (s : State) (level : Level) (timeout : Count) :
    (s.measureEdge level timeout).st = s.st := by
  unfold State.measureEdge; split_ifs <;> rfl
@[simp] theorem State.measureEdge_bitidx (s : State) (level : Level) (timeout : Count) :
    (s.measureEdge level timeout).bitidx = s.bitidx := by
  unfold State.measureEdge; split_ifs <;> rfl
@[simp] theorem State.measureEdge_frame (s : State) (level : Level) (timeout : Count) :
    (s.measureEdge level timeout).frame = s.frame := by
  unfold State.measureEdge; split_ifs <;> rfl
@[simp] theorem State.measureEdge_params (s : State) (level : Level) (timeout : Count) :
    (s.measureEdge level timeout).params = s.params := by
  unfold State.measureEdge; split_ifs <;> rfl
@[simp] theorem State.measureEdge_timerAlone (s : State) (level : Level) (timeout : Count) :
    (s.measureEdge level timeout).timerAlone = s.timerAlone := by
  unfold State.measureEdge; split_ifs <;> rfl

/-- The end of an edge leaves the timer as it was or back in the block. -/
theorem State.endEdge_timerAlone_cases (s : State) :
    s.endEdge.timerAlone = none ∨ s.endEdge.timerAlone = s.timerAlone := by
  rw [State.endEdge_timerAlone]
  split_ifs
  · exact .inr rfl
  · exact .inl rfl

/-- Every step keeps the parameters (R7). -/
theorem step_params {s t : State} (h : step s = .next t) : t.params = s.params := by
  obtain ⟨-, ⟨-, rfl⟩ | ⟨-, -, rfl⟩ | ⟨-, w, -, -, rfl⟩⟩ := step_next_cases h
  · rfl
  · simp [blockResult]
  · simp

/-- Settles O41: the inputs and the parameters at every step; the timer by the kind of edge. -/
theorem stepKeepsTheConfiguration : Obligations.StepKeepsTheConfiguration := by
  intro s t h
  obtain ⟨hinputs, hedge⟩ := step_inputs h
  refine ⟨step_params h, hinputs, hedge, ?_⟩
  obtain ⟨-, ⟨-, rfl⟩ | ⟨-, ha, -⟩ | ⟨-, w, -, -, rfl⟩⟩ := step_next_cases h
  · exact .inl rfl
  · exact .inl (step_timerAlone ha h)
  · simpa using State.endEdge_timerAlone_cases (s.beginEdge.measureEdge (ptLevelField w) (ptTimeoutField w))

/-! ### The two operations of an edge write different registers (R73, R160) -/

/-- The presented command alone, on the pre-edge state. -/
theorem exec_presented {s : State} {i : Instr} (h : s.presented = some i) :
    exec i s.beginEdge = .next (commandResult s) := by
  rw [← runCommand_presented, h, runCommand]

/-- While busy the command drives its wires alone, so the edge is the micro-operation's on the pre-edge state with these
wires. -/
theorem microResult_commandResult_of_busy {s : State} (h : s.st ≠ .idle) :
    microResult s.st (commandResult s) =
      { microResult s.st s.beginEdge with
        accepted := (commandResult s).accepted, rdata := (commandResult s).rdata } := by
  conv_lhs => rw [commandResult_busy h]
  exact (microResult_wires s.st s.beginEdge s.inputs (commandResult s).accepted (commandResult s).rdata rfl).trans
    (by simp)

/-- In IDLE the micro-operation writes nothing (R162). -/
theorem microResult_of_idle {p : Phase} (h : p = .idle) (s : State) : microResult p s = s := by
  rw [h, microResult]

section
variable {α : Type} {before new : α}

/-- A field that the micro-operation leaves alone has the command's value after the edge. -/
theorem WritesTogether.of_command : WritesTogether before new before new := .inr ⟨rfl, rfl⟩

/-- A field that the command leaves alone has the micro-operation's. -/
theorem WritesTogether.of_microOp : WritesTogether before before new new := .inl ⟨rfl, rfl⟩

end

/-- Settles O35: in IDLE the micro-operation writes nothing, elsewhere the command writes its wires alone. -/
theorem commandAndMicroOperationReadPreEdgeValues : Obligations.CommandAndMicroOperationReadPreEdgeValues := by
  intro s c m i hp ha hr hi hc hm
  obtain rfl : commandResult s = c := Host.Outcome.next.inj ((exec_presented hi).symm.trans hc)
  obtain rfl : microResult s.st s.beginEdge = m :=
    Host.Outcome.next.inj ((exec_microOp s.st (s := s.beginEdge) hp).symm.trans hm)
  refine ⟨blockResult s, step_block hp hr ha, ?_⟩
  by_cases hst : s.st = .idle
  · rw [blockResult_idle hst, microResult_of_idle hst]
    exact ⟨.of_command, .of_command, .of_command, .of_command, .of_command, .of_command, .of_command, .of_command,
      .of_command, .of_command, .of_command, .of_command, rfl, rfl, commandResult_ptres s⟩
  · rw [blockResult, microResult_commandResult_of_busy hst, commandResult_busy hst]
    exact ⟨.of_microOp, .of_microOp, .of_microOp, .of_microOp, .of_microOp, .of_microOp, .of_microOp, .of_microOp,
      .of_microOp, .of_microOp, .of_microOp, .of_microOp, rfl, rfl, rfl⟩

/-! ### Single operations -/

/-- Settles O2: the values of the definition, `FRAME` left out. -/
theorem resetStateHoldsTheSpecValues : Obligations.ResetStateHoldsTheSpecValues :=
  ⟨rfl, rfl, rfl, rfl, rfl, rfl, rfl, rfl, rfl, rfl, rfl, rfl, rfl, rfl, rfl, rfl⟩

/-- Settles O19: the three ways that an edge of a measurement can go. -/
theorem measureEdgeRule : Obligations.MeasureEdgeRule := by
  intro level timeout s hlegal
  rw [exec_measure_of_legal level ((timeoutLegal_iff timeout).mpr hlegal)]
  refine ⟨fun hs => ?_, fun hs ht => ?_, fun hs ht => ⟨?_, cnt_succ_toNat ht⟩⟩
  · rw [State.measureEdge_of_ne timeout hs]
  · rw [State.measureEdge_timeout hs ht]
  · rw [State.measureEdge_count hs ht]

/-- Settles O22: the meaning of IDLE is its argument. -/
theorem idleWritesNothing : Obligations.IdleWritesNothing := fun _ => rfl

end Sys2Proof.Machine
end

section
/-! The invariants of `10_state.md` section 7: every kind of edge keeps each of their clauses, so every run does. -/

namespace Sys2Proof.Machine

/-! ### `CNT` within the range of its state (R37) -/

/-- In a measuring state at least one counted sample, and no more than the bound, are in the range. -/
theorem cntInRange_of_le_bound {P : Params} {p : Phase} {c bound : Nat} {level : Level}
    (hm : measurement p = some (level, bound)) (hpos : 1 ≤ c) (hle : c ≤ bound) : CntInRange P p c := by
  cases p with
  | ackLow => cases hm; exact hle
  | ackHigh | bitLow | bitHigh => cases hm; exact ⟨hpos, hle⟩
  | idle | reqLow | reqHigh | validate => cases hm

/-- In its range `CNT` is at most `T_REQ_LOW` - 1, the largest value ever held (`10_state.md` section 4). -/
theorem CntInRange.le_tReqLow {P : Params} {p : Phase} {c : Nat} (hp : legalParams P = true) (h : CntInRange P p c) :
    c ≤ P.tReqLow - 1 := by
  obtain ⟨hlow, -, -, hhigh⟩ := (legalParams_iff P).mp hp
  cases p <;> simp only [CntInRange] at h <;> omega

/-- `CNT` at the next edge of a count, in the range of any state. -/
theorem CntInRange.succ_toNat {P : Params} {p : Phase} {c : Count} (hp : legalParams P = true)
    (h : CntInRange P p c.toNat) : (c + 1#15).toNat = c.toNat + 1 := by
  obtain ⟨-, hle, -⟩ := (legalParams_iff P).mp hp
  have := h.le_tReqLow hp
  exact cnt_add_one_toNat (by omega)

/-- A busy edge takes `CNT` from the range of its state to that of the next one. -/
theorem BusyEdge.cntInRange {s t : State} (hedge : BusyEdge s t) (hp : legalParams s.params = true)
    (h : CntInRange s.params s.st s.cnt.toNat) : CntInRange t.params t.st t.cnt.toNat := by
  have hsucc := h.succ_toNat hp
  obtain ⟨hlow, -, hhigh, -⟩ := (legalParams_iff s.params).mp hp
  cases hedge with
  | reqLowCount hst hc =>
    have hle : s.cnt.toNat ≤ s.params.tReqLow - 1 := (hst ▸ h :)
    have hnext : (s.cnt + 1#15).toNat ≤ s.params.tReqLow - 1 := by omega
    show CntInRange s.params s.st _
    rwa [hst]
  | reqHighCount hst hc =>
    have hle : s.cnt.toNat ≤ s.params.tReqHigh - 1 := (hst ▸ h :)
    have hnext : (s.cnt + 1#15).toNat ≤ s.params.tReqHigh - 1 := by omega
    show CntInRange s.params s.st _
    rwa [hst]
  | count level bound hm hs hc =>
    exact cntInRange_of_le_bound hm (hsucc ▸ Nat.le_add_left 1 _) (hsucc ▸ hc)
  | reqLowEnd | reqHighEnd => exact Nat.zero_le _
  | timeout | lastBit => rfl
  | ackLowEnd | ackHighEnd | bitLowEnd | nextBit => exact ⟨Nat.le_refl 1, Nat.le_of_ble_eq_true rfl⟩
  | checksumRight hst | checksumWrong hst => exact (hst ▸ h :)

/-- The command of an edge is an accepted READ, or it writes none of `ST`, `CNT` and `BITIDX` (R122 to R125). -/
theorem commandResult_read_or_kept {s : State} (hr : s.input.rst = false) :
    (s.accepting = true ∧ s.input.cmdOp = 0b01#2 ∧
        commandResult s = { s.beginEdge.respond true 0#8 with
          oe := true, out := false, st := .reqLow, cnt := 0#15, bitidx := 0, done := false }) ∨
      ((commandResult s).st = s.st ∧ (commandResult s).cnt = s.cnt ∧ (commandResult s).bitidx = s.bitidx) := by
  by_cases hread : s.accepting = true ∧ s.input.cmdOp = 0b01#2
  · obtain ⟨hacc, hop⟩ := hread
    exact .inl ⟨hacc, hop, commandResult_read hop hacc⟩
  · refine .inr ?_
    unfold commandResult
    split_ifs with hv hop0 hst hop hready
    · exact ⟨rfl, rfl, rfl⟩
    · exact ⟨rfl, rfl, rfl⟩
    · exact absurd ⟨(accepting_read_iff hop).mpr ⟨hr, hv, hready⟩, hop⟩ hread
    all_goals exact ⟨rfl, rfl, rfl⟩

/-- A command sets `CNT` to 0 with `ST` = REQ_LOW, where it is an accepted READ, or writes neither (R123). -/
theorem commandResult_cntInRange {s : State} (hr : s.input.rst = false)
    (h : CntInRange s.params s.st s.cnt.toNat) :
    CntInRange s.params (commandResult s).st (commandResult s).cnt.toNat := by
  obtain ⟨-, -, hread⟩ | ⟨hst, hcnt, -⟩ := commandResult_read_or_kept hr
  · rw [hread]
    exact Nat.zero_le _
  · rwa [hst, hcnt]

/-- Every edge of the block keeps `CNT` in the range of its state (R37). -/
theorem step_cntInRange {s t : State} (ha : s.timerAlone = none) (hc : CntInRange s.params s.st s.cnt.toNat)
    (h : step s = .next t) : CntInRange t.params t.st t.cnt.toNat := by
  obtain ⟨hp, -⟩ := step_next_cases h
  obtain ⟨-, rfl⟩ | ⟨hr, -, rfl⟩ | ⟨-, -, hedge⟩ := step_block_cases ha h
  · rfl
  · simpa using commandResult_cntInRange hr hc
  · exact hedge.cntInRange hp hc

/-! ### A busy block has a pin (R32) -/

/-- A busy edge does not touch `CFG`. -/
theorem BusyEdge.cfg {s t : State} (h : BusyEdge s t) : t.cfg = s.cfg := by
  cases h <;> rfl

/-- The command of an edge in IDLE makes the block busy only where a READ is accepted, which takes a pin. -/
theorem commandResult_cfg_of_busy {s : State} (hr : s.input.rst = false) (hst : s.st = .idle)
    (h : (commandResult s).st ≠ .idle) : (commandResult s).cfg = true := by
  obtain ⟨hacc, hop, hread⟩ | ⟨hkept, -, -⟩ := commandResult_read_or_kept hr
  · rw [hread]
    exact (cfg_of_accepting_read hacc hop :)
  · exact absurd (hkept.trans hst) h

/-- Every edge of the block keeps "while busy, `CFG` = 1" (R47). -/
theorem step_cfg_of_busy {s t : State} (ha : s.timerAlone = none) (hinv : s.st ≠ .idle → s.cfg = true)
    (h : step s = .next t) (hbusy : t.st ≠ .idle) : t.cfg = true := by
  obtain ⟨-, rfl⟩ | ⟨hr, hst, rfl⟩ | ⟨-, hst, hedge⟩ := step_block_cases ha h
  · exact absurd rfl hbusy
  · exact commandResult_cfg_of_busy hr hst hbusy
  · exact hedge.cfg.trans (hinv hst)

/-! ### The invariant of R47 -/

/-- The clauses of the invariant that are not true of every state. -/
theorem blockInv_of {s : State} (hp : legalParams s.params = true) (ha : s.timerAlone = none)
    (hline : LineFollowsPhase s) (hcnt : CntInRange s.params s.st s.cnt.toNat) (hdone : s.done = true → s.st = .idle)
    (hcfg : s.st ≠ .idle → s.cfg = true) : BlockInv s where
  params := hp
  inBlock := ha
  oe := (lineFollowsPhase_iff.mp hline).1
  out := (lineFollowsPhase_iff.mp hline).2
  bitidx := by rw [State.bitidxBits_toNat]; omega
  cnt := hcnt
  done := hdone
  cfg := hcfg
  outcome := s.outcome.code_ne_three

/-- Settles O42: each clause is kept by every edge. -/
theorem everyStepKeepsTheBlockInvariant : Obligations.EveryStepKeepsTheBlockInvariant := fun _ _ hinv h =>
  blockInv_of (step_params h ▸ hinv.params) (step_timerAlone hinv.inBlock h)
    (step_lineFollowsPhase hinv.inBlock hinv.lineFollowsPhase h) (step_cntInRange hinv.inBlock hinv.cnt h)
    (step_st_idle_of_done hinv.done hinv.inBlock h) (step_cfg_of_busy hinv.inBlock hinv.cfg h)

/-- So every run of edges keeps the invariant. -/
theorem runEdges_blockInv {k : Nat} {s t : State} (hinv : BlockInv s) (h : runEdges k s = .next t) : BlockInv t :=
  runEdges_keeps everyStepKeepsTheBlockInvariant hinv h

/-- Settles O43: `State.reset` is in IDLE, releases the line and has `CNT` = 0. -/
theorem resetMeetsTheBlockInvariant : Obligations.ResetMeetsTheBlockInvariant :=
  ⟨blockInv_of rfl rfl rfl rfl (fun _ => rfl) fun hbusy => absurd rfl hbusy, fun _ => rfl, fun h => nomatch h⟩

/-- Settles O45: after the run the invariant still says that `DONE` = 1 only in IDLE. -/
theorem busyAndDoneAreNeverBothOne : Obligations.BusyAndDoneAreNeverBothOne := by
  rintro k s t hinv h ⟨hbusy, hdone⟩
  exact of_decide_eq_true hbusy ((runEdges_blockInv hinv h).done hdone)

/-! ### The place of `BITIDX` (R26) -/

/-- A busy edge keeps the place of `BITIDX`: it stays 0 until the bit loop, which is left for VALIDATE at 39. -/
theorem BusyEdge.bitidxInPlace {s t : State} (hedge : BusyEdge s t) (h : BitidxInPlace s) : BitidxInPlace t := by
  obtain ⟨hzero, hlast⟩ := h
  cases hedge with
  | reqLowCount | reqHighCount | count => exact ⟨hzero, hlast⟩
  | reqLowEnd hst | reqHighEnd hst | ackLowEnd hst => exact ⟨fun _ => hzero (by simp [hst]), fun hv => nomatch hv⟩
  | lastBit hst hs hb => exact ⟨fun hv => by simp at hv, fun _ => hb⟩
  | _ => exact ⟨fun hv => by simp at hv, fun hv => by simp at hv⟩

/-- A command writes `BITIDX` with `ST` = REQ_LOW, where it is an accepted READ, or neither (R123). -/
theorem commandResult_bitidxInPlace {s : State} (hr : s.input.rst = false) (h : BitidxInPlace s) :
    BitidxInPlace (commandResult s) := by
  obtain ⟨-, -, hread⟩ | ⟨hst, -, hbit⟩ := commandResult_read_or_kept hr
  · rw [hread]
    exact ⟨fun _ => rfl, fun hv => nomatch hv⟩
  · rwa [BitidxInPlace, hst, hbit]

/-- Settles O44: reset, the command in IDLE, each busy edge; the timer alone writes neither `ST` nor `BITIDX`. -/
theorem everyStepKeepsBitidxInPlace : Obligations.EveryStepKeepsBitidxInPlace := by
  intro s t hbit h
  obtain ⟨-, ⟨-, rfl⟩ | ⟨hr, ha, rfl⟩ | ⟨-, w, -, -, rfl⟩⟩ := step_next_cases h
  · exact ⟨fun _ => rfl, fun hv => nomatch hv⟩
  · by_cases hst : s.st = .idle
    · rw [blockResult_idle hst]
      exact commandResult_bitidxInPlace hr hbit
    · exact (blockResult_busyEdge hst).bitidxInPlace hbit
  · simpa [BitidxInPlace] using hbit

/-! ### `CNT` counts by one and restarts with a new state (R36, R151) -/

/-- How `CNT` may change at an edge from `s` to `t`. -/
def CountsOrRestarts (s t : State) : Prop :=
  t.cnt = s.cnt ∨ t.cnt.toNat = s.cnt.toNat + 1 ∨ (t.st ≠ s.st ∧ (t.cnt = 0#15 ∨ t.cnt = 1#15))

/-- A busy edge counts, keeps `CNT`, or leaves its state. -/
theorem BusyEdge.countsOrRestarts {s t : State} (hedge : BusyEdge s t)
    (hsucc : (s.cnt + 1#15).toNat = s.cnt.toNat + 1) : CountsOrRestarts s t := by
  cases hedge with
  | reqLowCount | reqHighCount | count => exact .inr (.inl hsucc)
  | checksumRight | checksumWrong => exact .inl rfl
  | reqLowEnd hst | reqHighEnd hst | lastBit hst => exact .inr (.inr ⟨by simp [hst], .inl rfl⟩)
  | ackLowEnd hst | ackHighEnd hst | bitLowEnd hst | nextBit hst => exact .inr (.inr ⟨by simp [hst], .inr rfl⟩)
  | timeout level bound hm =>
    obtain ⟨hne, -⟩ := not_idle_or_validate_of_measurement hm
    exact .inr (.inr ⟨hne.symm, .inl rfl⟩)

/-- In IDLE a command keeps `CNT` or, where it is an accepted READ, restarts it in REQ_LOW. -/
theorem commandResult_countsOrRestarts {s : State} (hr : s.input.rst = false) (hst : s.st = .idle) :
    CountsOrRestarts s (commandResult s) := by
  obtain ⟨-, -, hread⟩ | ⟨-, hcnt, -⟩ := commandResult_read_or_kept hr
  · rw [hread]
    exact .inr (.inr ⟨by simp [hst], .inl rfl⟩)
  · exact .inl hcnt

/-- Reset restarts `CNT`, which in IDLE is 0 already. -/
theorem resetEdge_countsOrRestarts {s : State} (h : CntInRange s.params s.st s.cnt.toNat) :
    CountsOrRestarts s s.resetEdge := by
  by_cases hst : s.st = .idle
  · rw [hst] at h
    exact .inl (BitVec.eq_of_toNat_eq (Eq.symm h))
  · exact .inr (.inr ⟨fun he => hst he.symm, .inl rfl⟩)

/-- Settles O47: the bound from the range of the state, the change by the kind of edge. -/
theorem counterNeverWraps : Obligations.CounterNeverWraps := by
  intro s t hinv h
  obtain ⟨-, hmax, -⟩ := (legalParams_iff s.params).mp hinv.params
  have hle := hinv.cnt.le_tReqLow hinv.params
  refine ⟨hle, by omega, by omega, ?_⟩
  obtain ⟨-, rfl⟩ | ⟨hr, hst, rfl⟩ | ⟨-, -, hedge⟩ := step_block_cases hinv.inBlock h
  · exact resetEdge_countsOrRestarts hinv.cnt
  · exact commandResult_countsOrRestarts hr hst
  · exact hedge.countsOrRestarts (hinv.cnt.succ_toNat hinv.params)

/-! ### The start of an attempt (R123) -/

/-- Settles O51: the edge is the accepted READ's, and it keeps the invariant. -/
theorem acceptedReadStartsAnAttempt : Obligations.AcceptedReadStartsAnAttempt := by
  intro s hinv hr hv hop hst hcfg
  have hstep := step_block hinv.params hr hinv.inBlock
  have hstart := everyStepKeepsTheBlockInvariant _ _ hinv hstep
  rw [blockResult_idle hst, commandResult_read hop ((accepting_read_iff hop).mpr ⟨hr, hv, hst, hcfg⟩)] at hstep hstart
  exact ⟨_, hstep, ⟨hstart, rfl, rfl, rfl⟩, rfl, rfl, rfl, rfl, rfl, rfl, rfl⟩

end Sys2Proof.Machine
end

section
/-! The frame buffer (`20_memory.md` section 1): the one edge that writes it, and that bits which the running attempt
has not written reach nothing. -/

namespace Sys2Proof.Machine

/-! ### The one store of the frame (R20, R63) -/


/-- What an edge of the block with `rst` = 0 makes of a frame. -/
def frameAfterEdge (s : State) (f : Frame) : Frame :=
  if s.st = .bitHigh ∧ s.lineSample = false then f.writeBit s.bitidx (decideBit s.cnt) else f

/-- The edge that completes a bit stores the decision in data bit `BITIDX`. -/
theorem frameAfterEdge_of_bit {s : State} (hst : s.st = .bitHigh) (hs : s.lineSample = false) (f : Frame) :
    frameAfterEdge s f = f.writeBit s.bitidx (decideBit s.cnt) :=
  if_pos ⟨hst, hs⟩

/-- Every other edge leaves the frame alone. -/
theorem frameAfterEdge_of_no_bit {s : State} (h : ¬(s.st = .bitHigh ∧ s.lineSample = false)) (f : Frame) :
    frameAfterEdge s f = f :=
  if_neg h

/-- A busy edge stores in the frame what `frameAfterEdge` says. -/
theorem BusyEdge.frame {s t : State} (h : BusyEdge s t) : t.frame = frameAfterEdge s s.frame := by
  cases h with
  | nextBit hst hs | lastBit hst hs => exact (frameAfterEdge_of_bit hst hs s.frame).symm
  | count level bound hm hs | timeout level bound hm hs =>
    refine (frameAfterEdge_of_no_bit ?_ s.frame).symm
    rintro ⟨hst, hlow⟩
    rw [hst] at hm
    cases hm
    exact absurd (hs.symm.trans hlow) (by decide)
  | reqLowCount hst | reqLowEnd hst | reqHighCount hst | reqHighEnd hst | ackLowEnd hst | ackHighEnd hst
  | bitLowEnd hst | checksumRight hst | checksumWrong hst =>
    exact (frameAfterEdge_of_no_bit (by simp [hst]) s.frame).symm

/-- So does every edge of the block with `rst` = 0. -/
theorem blockResult_frame (s : State) : (blockResult s).frame = frameAfterEdge s s.frame := by
  by_cases hst : s.st = .idle
  · rw [blockResult_idle hst, frameAfterEdge_of_no_bit (by simp [hst])]
    exact commandResult_frame s
  · exact (blockResult_busyEdge hst).frame

/-- The bits that an edge of the block changes. -/
theorem frameAfterEdge_bit_ne {s : State} {f : Frame} {n : Fin 40} (h : (frameAfterEdge s f).bit n ≠ f.bit n) :
    s.st = .bitHigh ∧ s.lineSample = false ∧ n = s.bitidx ∧
      (frameAfterEdge s f).bit n = decide (40 < s.cnt.toNat) := by
  by_cases hbit : s.st = .bitHigh ∧ s.lineSample = false
  · obtain ⟨hst, hs⟩ := hbit
    rw [frameAfterEdge_of_bit hst hs] at h ⊢
    obtain rfl : n = s.bitidx := by
      by_contra hn
      exact h (Frame.bit_writeBit_ne f _ hn)
    exact ⟨hst, hs, rfl, by rw [Frame.bit_writeBit_same, decideBit_eq rfl]⟩
  · rw [frameAfterEdge_of_no_bit hbit] at h
    exact absurd rfl h

/-- Settles O40: an edge of the block stores as `frameAfterEdge` says, one of the timer alone stores nothing. -/
theorem frameWrittenOnlyByBitHigh : Obligations.FrameWrittenOnlyByBitHigh := by
  intro s t h hr n hn
  obtain ⟨-, ⟨hr', -⟩ | ⟨-, ha, rfl⟩ | ⟨-, w, -, -, rfl⟩⟩ := step_next_cases h
  · exact absurd hr' (by simp [hr])
  · rw [blockResult_frame] at hn ⊢
    exact ⟨ha, frameAfterEdge_bit_ne hn⟩
  · exact absurd (congrArg (Frame.bit · n) (State.measureEdge_frame s.beginEdge _ _)) hn

/-! ### Stale frame bits (U1, R20) -/

/-- The state with another frame. -/
def State.withFrame (s : State) (f : Frame) : State := { s with frame := f }

/-- The completion of a bit looks at the frame only to store the bit in it (R176). -/
theorem completeBit_withFrame (d : Count) (s : State) (f : Frame) :
    completeBit d (s.withFrame f) = (completeBit d s).withFrame (f.writeBit s.bitidx (decideBit d)) := by
  by_cases h : s.bitidx.val = 39
  · rw [completeBit_last (s := s.withFrame f) d h, completeBit_last d h]
    rfl
  · have hnext : s.bitidx.val + 1 < 40 := by omega
    rw [completeBit_next (s := s.withFrame f) d hnext, completeBit_next d hnext]
    rfl

/-- So does an edge in BIT_HIGH, which with a high sample does not look at the frame at all. -/
theorem microResult_bitHigh_withFrame (s : State) (f : Frame) :
    microResult .bitHigh (s.withFrame f) =
      (microResult .bitHigh s).withFrame
        (if s.lineSample = false then f.writeBit s.bitidx (decideBit s.cnt) else f) := by
  simp only [microResult]
  by_cases hs : s.lineSample = true
  · rw [if_neg (by simp [hs])]
    by_cases ht : Config.tBitHigh.toNat < s.cnt.toNat + 1
    · rw [State.measuring_timeout completeBit hs ht, State.measuring_timeout (s := s.withFrame f) completeBit hs ht]
      rfl
    · have hc : s.cnt.toNat + 1 ≤ Config.tBitHigh.toNat := Nat.not_lt.mp ht
      rw [State.measuring_count completeBit hs hc, State.measuring_count (s := s.withFrame f) completeBit hs hc]
      rfl
  · rw [if_pos (by simpa using hs), State.measuring_of_ne _ completeBit hs,
      State.measuring_of_ne (s := s.withFrame f) _ completeBit hs]
    exact completeBit_withFrame s.cnt { s with ptres := some (.duration s.cnt) } f

/-- Outside VALIDATE an edge of the block does with any frame what `frameAfterEdge` says, and nothing else depends on
the frame. -/
theorem blockResult_withFrame {s : State} (hv : s.st ≠ .validate) (f : Frame) :
    blockResult (s.withFrame f) = (blockResult s).withFrame (frameAfterEdge s f) := by
  have hcommand : commandResult (s.withFrame f) = (commandResult s).withFrame f := commandResult_withFrame s f
  have hst : (s.withFrame f).st = s.st := rfl
  rw [blockResult, hcommand, hst]
  by_cases hb : s.st = .bitHigh
  · have hbit : (commandResult s).bitidx = s.bitidx ∧ (commandResult s).cnt = s.cnt := by
      rw [commandResult_busy (by simp [hb])]
      exact ⟨rfl, rfl⟩
    obtain ⟨hidx, hcnt⟩ := hbit
    rw [blockResult, hb, microResult_bitHigh_withFrame, commandResult_lineSample, hidx, hcnt]
    simp only [frameAfterEdge, hb, true_and]
    rfl
  · rw [frameAfterEdge_of_no_bit (by simp [hb])]
    exact congrArg State.endEdge (microResult_withFrame (commandResult s) f hb hv)

/-- Equal states differ in no bit. -/
theorem SameButStaleFrame.refl (s : State) : SameButStaleFrame s s := ⟨rfl, fun _ _ => rfl⟩

/-- What the relation says of the second state. -/
theorem SameButStaleFrame.eq_withFrame {s t : State} (h : SameButStaleFrame s t) : s.withFrame t.frame = t := h.same

/-- A frame bit is the same after an edge if it was before, or if the edge stores it. -/
theorem frameAfterEdge_bit_congr {s : State} {f g : Frame} {n : Fin 40}
    (h : f.bit n = g.bit n ∨ (s.st = .bitHigh ∧ s.lineSample = false ∧ n = s.bitidx)) :
    (frameAfterEdge s f).bit n = (frameAfterEdge s g).bit n := by
  by_cases hbit : s.st = .bitHigh ∧ s.lineSample = false
  · obtain ⟨hst, hs⟩ := hbit
    rw [frameAfterEdge_of_bit hst hs, frameAfterEdge_of_bit hst hs]
    by_cases hn : n = s.bitidx
    · rw [hn, Frame.bit_writeBit_same, Frame.bit_writeBit_same]
    · rw [Frame.bit_writeBit_ne f _ hn, Frame.bit_writeBit_ne g _ hn]
      exact h.resolve_right fun ⟨_, _, he⟩ => hn he
  · rw [frameAfterEdge_of_no_bit hbit, frameAfterEdge_of_no_bit hbit]
    exact h.resolve_right fun ⟨hst, hs, _⟩ => hbit ⟨hst, hs⟩

/-- The bits that the attempt has written after a busy edge: those from before it, and the one that the edge stores. -/
theorem BusyEdge.lt_bitsWritten {s t : State} (hedge : BusyEdge s t) (hplace : BitidxInPlace s) (hv : s.st ≠ .validate)
    {n : Fin 40} (hn : n.val < bitsWritten t) :
    n.val < bitsWritten s ∨ (s.st = .bitHigh ∧ s.lineSample = false ∧ n = s.bitidx) := by
  obtain ⟨hzero, -⟩ := hplace
  cases hedge with
  | reqLowCount | reqHighCount | count => exact .inl hn
  | reqLowEnd | reqHighEnd | timeout | ackLowEnd => exact absurd hn (Nat.not_lt_zero _)
  | ackHighEnd hst =>
    have hidx : s.bitidx.val = 0 := congrArg Fin.val (hzero (by simp [hst]))
    exact absurd (hidx ▸ hn : n.val < 0) (Nat.not_lt_zero _)
  | bitLowEnd hst => exact .inl (by rw [bitsWritten, hst]; exact hn)
  | nextBit hst hs hb =>
    have hlt : n.val < s.bitidx.val + 1 := hn
    rw [bitsWritten, hst]
    rcases Nat.lt_succ_iff_lt_or_eq.mp hlt with hlt | heq
    · exact .inl hlt
    · exact .inr ⟨rfl, hs, Fin.ext heq⟩
  | lastBit hst hs hb =>
    rw [bitsWritten, hst]
    rcases Nat.lt_or_eq_of_le (show n.val ≤ s.bitidx.val by omega) with hlt | heq
    · exact .inl hlt
    · exact .inr ⟨rfl, hs, Fin.ext heq⟩
  | checksumRight hst | checksumWrong hst => exact absurd hst hv

/-- In IDLE and at the start of an attempt no bit is written that matters. -/
theorem bitsWritten_commandResult_of_idle {s : State} (hr : s.input.rst = false) (hst : s.st = .idle) :
    bitsWritten (commandResult s) = 0 := by
  obtain ⟨-, -, hread⟩ | ⟨hkept, -, -⟩ := commandResult_read_or_kept hr
  · rw [hread]
    rfl
  · rw [bitsWritten, hkept, hst]

/-- After any edge of the block but that of VALIDATE: the bits from before it, and the one that the edge stores. -/
theorem lt_bitsWritten_of_blockResult {s : State} (hr : s.input.rst = false) (hplace : BitidxInPlace s)
    (hv : s.st ≠ .validate) {n : Fin 40} (hn : n.val < bitsWritten (blockResult s)) :
    n.val < bitsWritten s ∨ (s.st = .bitHigh ∧ s.lineSample = false ∧ n = s.bitidx) := by
  by_cases hst : s.st = .idle
  · rw [blockResult_idle hst] at hn
    exact absurd (bitsWritten_commandResult_of_idle hr hst ▸ hn) (Nat.not_lt_zero _)
  · exact (blockResult_busyEdge hst).lt_bitsWritten hplace hv hn

/-- In VALIDATE every bit is written, so there is no stale one. -/
theorem SameButStaleFrame.eq_of_validate {s t : State} (h : SameButStaleFrame s t) (hst : s.st = .validate) :
    s = t := by
  have hframe : s.frame = t.frame := Frame.ext_bit fun n => h.written n (by rw [bitsWritten, hst]; exact n.isLt)
  rw [← h.eq_withFrame, ← hframe]
  rfl

/-- An edge of the block takes states that agree but for stale bits to such states. -/
theorem SameButStaleFrame.blockResult {s t : State} (h : SameButStaleFrame s t) (hr : s.input.rst = false)
    (hplace : BitidxInPlace s) : SameButStaleFrame (blockResult s) (blockResult t) := by
  by_cases hv : s.st = .validate
  · exact h.eq_of_validate hv ▸ .refl _
  · have ht := blockResult_withFrame hv t.frame
    rw [h.eq_withFrame] at ht
    rw [ht]
    refine ⟨rfl, fun n hn => ?_⟩
    rw [blockResult_frame]
    exact frameAfterEdge_bit_congr ((lt_bitsWritten_of_blockResult hr hplace hv hn).imp_left (h.written n))

/-- Nor does the timer alone look at the frame. -/
theorem State.measureEdge_withFrame (s : State) (f : Frame) (level : Level) (timeout : Count) :
    (s.withFrame f).measureEdge level timeout = (s.measureEdge level timeout).withFrame f := by
  by_cases hs : s.lineSample = level
  · by_cases ht : timeout.toNat < s.cnt.toNat + 1
    · rw [State.measureEdge_timeout hs ht, State.measureEdge_timeout (s := s.withFrame f) hs ht]
      rfl
    · have hc : s.cnt.toNat + 1 ≤ timeout.toNat := Nat.not_lt.mp ht
      rw [State.measureEdge_count hs hc, State.measureEdge_count (s := s.withFrame f) hs hc]
      rfl
  · rw [State.measureEdge_of_ne _ hs, State.measureEdge_of_ne (s := s.withFrame f) _ hs]
    rfl

/-- An edge of the timer alone stores nothing and writes neither `ST` nor `BITIDX`. -/
theorem SameButStaleFrame.timerEdge {s t : State} (h : SameButStaleFrame s t) (level : Level) (timeout : Count) :
    SameButStaleFrame (s.beginEdge.measureEdge level timeout).endEdge
      (t.beginEdge.measureEdge level timeout).endEdge := by
  have ht : t.beginEdge.measureEdge level timeout = (s.beginEdge.measureEdge level timeout).withFrame t.frame := by
    conv_lhs => rw [← h.eq_withFrame]
    exact State.measureEdge_withFrame s.beginEdge t.frame level timeout
  rw [ht]
  refine ⟨rfl, fun n hn => ?_⟩
  rw [State.endEdge_frame, State.measureEdge_frame]
  exact h.written n (by simpa [bitsWritten] using hn)

/-- Every step takes states that agree but for stale bits to such states. -/
theorem SameButStaleFrame.step {s t s' : State} (h : SameButStaleFrame s t) (hplace : BitidxInPlace s)
    (hs : step s = .next s') : ∃ t', Machine.step t = .next t' ∧ SameButStaleFrame s' t' := by
  have ht := h.eq_withFrame
  have hparams : t.params = s.params := ht ▸ rfl
  have hinput : t.input = s.input := ht ▸ rfl
  have halone : t.timerAlone = s.timerAlone := ht ▸ rfl
  obtain ⟨hp, ⟨hr, rfl⟩ | ⟨hr, ha, rfl⟩ | ⟨hr, w, ha, hw, rfl⟩⟩ := step_next_cases hs <;>
    rw [← hparams] at hp <;> rw [← hinput] at hr
  · have hreset : t.resetEdge = s.resetEdge := ht ▸ rfl
    exact ⟨_, step_reset hp hr, hreset ▸ .refl _⟩
  · exact ⟨_, step_block hp hr (halone.trans ha), h.blockResult (hinput ▸ hr) hplace⟩
  · exact ⟨_, step_timer hp hr (halone.trans ha) hw, h.timerEdge _ _⟩

/-- So does every run of edges. -/
theorem SameButStaleFrame.run {k : Nat} {s t s' : State} (h : SameButStaleFrame s t) (hplace : BitidxInPlace s)
    (hs : runEdges k s = .next s') : ∃ t', runEdges k t = .next t' ∧ SameButStaleFrame s' t' := by
  induction k generalizing s t with
  | zero =>
    cases hs
    exact ⟨t, runEdges_zero t, h⟩
  | succ k ih =>
    obtain ⟨u, hu, hs'⟩ := andThen_eq_next (show andThen (Machine.step s) (runEdges k) = .next s' from hs)
    obtain ⟨v, hv, huv⟩ := h.step hplace hu
    obtain ⟨t', ht', hst'⟩ := ih huv (everyStepKeepsBitidxInPlace s u hplace hu) hs'
    exact ⟨t', (runEdges_step k hv).trans ht', hst'⟩

/-- Settles O50: the relation is kept along the run, and it holds the reading, `OUTCOME` and `DONE` equal. -/
theorem staleFrameBitsNeverMatter : Obligations.StaleFrameBitsNeverMatter := by
  intro k s t s' h hplace hs
  obtain ⟨t', ht', hst'⟩ := h.run hplace hs
  have heq := hst'.eq_withFrame
  exact ⟨t', ht', hst', heq ▸ rfl, heq ▸ rfl, heq ▸ rfl, heq ▸ rfl⟩

/-! ### The checksum byte (S2) -/

/-- Flipping one bit of a byte changes it. -/
theorem flippedBit_ne (v : Byte) {k : Nat} (hk : k < 8) : v ^^^ (1#8 <<< k) ≠ v := by
  intro h
  have hbit := congrArg (BitVec.getLsbD · k) h
  simp [hk] at hbit

/-- Settles O32: the flipped byte differs from the sum, which does not contain it. -/
theorem flippedChecksumBitIsDetected : Obligations.FlippedChecksumBitIsDetected := by
  intro s f k hk hsum
  have hright : f.b4 = f.checksum := f.checksum_matches_iff.mpr hsum
  have hwrong : f.b4 ^^^ (1#8 <<< k) ≠ f.checksum := hright ▸ flippedBit_ne f.b4 hk
  exact ⟨_, if_neg hwrong, rfl, rfl, rfl, rfl⟩

end Sys2Proof.Machine
end

section
/-! What an edge does not look at: the command port while the block is busy, the sample outside the measuring states. -/

namespace Sys2Proof.Machine

/-! ### The command port, while busy (R76, R77) -/

/-- Two states that differ at most in the commands presented differ in no field but `inputs`. -/
theorem SameButCommands.eq_withInputs {s t : State} (h : SameButCommands s t) : { s with inputs := t.inputs } = t :=
  congrArg (fun u : State => { u with inputs := t.inputs }) h.same

/-- The micro-operation of a busy edge is the same whatever the command port shows. -/
theorem SameButCommands.microResult_busyState {s t : State} (h : SameButCommands s t) (p : Phase) :
    microResult p (busyState t) =
      { microResult p (busyState s) with
        inputs := t.inputs, accepted := (commandResult t).accepted, rdata := (commandResult t).rdata } := by
  have ht : busyState t = { busyState s with
      inputs := t.inputs, accepted := (commandResult t).accepted, rdata := (commandResult t).rdata } :=
    (congrArg (fun u : State =>
      { u with ptres := none, accepted := (commandResult t).accepted, rdata := (commandResult t).rdata })
      h.eq_withInputs).symm
  have hsample : (busyState t).lineSample = (busyState s).lineSample := h.lineIn.symm
  rw [ht] at hsample ⊢
  exact microResult_wires p (busyState s) _ _ _ hsample

/-- Settles O48: a reset edge does not look at the command port, and a busy edge shows its command on the port's wires
alone. -/
theorem hostCannotDisturbAnAttempt : Obligations.HostCannotDisturbAnAttempt := by
  intro s t s' hsame ha hst hs
  have ht := hsame.eq_withInputs
  have hparams : t.params = s.params := ht ▸ rfl
  have halone : t.timerAlone = s.timerAlone := ht ▸ rfl
  have hphase : t.st = s.st := ht ▸ rfl
  have hedge : t.edge = s.edge := ht ▸ rfl
  obtain ⟨hp, -⟩ := step_next_cases hs
  rw [← hparams] at hp
  obtain ⟨hr, rfl⟩ | ⟨hr, rfl⟩ := step_inBlock_cases ha hs <;> rw [hsame.rst] at hr
  · refine ⟨t.resetEdge, step_reset hp hr, ?_⟩
    simp [State.resetEdge, hparams, hedge]
  · refine ⟨blockResult t, step_block hp hr (halone.trans ha), ?_⟩
    rw [blockResult_busy hst, blockResult_busy (hphase ▸ hst), hphase, hsame.microResult_busyState]
    rfl

/-! ### The sample, outside the measuring states (R39, R61) -/

/-- The state with another level of the line at its next edge. -/
def State.withLevel (s : State) (level : Level) : State :=
  { s with inputs := { s.input with lineIn := level } :: s.inputs.tail }

/-- The command of an edge does not look at the sample. -/
theorem commandResult_withLevel (s : State) (level : Level) :
    commandResult (s.withLevel level) = { commandResult s with inputs := (s.withLevel level).inputs } := by
  have hv : (s.withLevel level).input.cmdValid = s.input.cmdValid := rfl
  have hop : (s.withLevel level).input.cmdOp = s.input.cmdOp := rfl
  have hst : (s.withLevel level).st = s.st := rfl
  have hcfg : (s.withLevel level).cfg = s.cfg := rfl
  unfold commandResult
  rw [hv, hop, hst, hcfg]
  split_ifs <;> rfl

/-- Nor does, outside the measuring states, the rest of the edge. -/
theorem blockResult_withLevel {s : State} (hst : s.st.ptreq = none) (level : Level) :
    blockResult (s.withLevel level) = blockResult s := by
  have hmicro : microResult s.st (commandResult (s.withLevel level)) =
      { microResult s.st (commandResult s) with inputs := (s.withLevel level).inputs } := by
    rw [commandResult_withLevel, microResult_inputs_of_ptreq_none hst]
  show (microResult s.st (commandResult (s.withLevel level))).endEdge = _
  rw [hmicro]
  simp [blockResult, State.endEdge, State.withLevel]

/-- Settles O49: neither a refusal, nor reset, nor an edge outside the measuring states looks at the sample. -/
theorem lineIgnoredOutsideMeasurements : Obligations.LineIgnoredOutsideMeasurements := by
  intro s level ha hst
  show step (s.withLevel level) = step s
  cases hp : legalParams s.params with
  | false => rw [step_of_illegalParams hp, step_of_illegalParams (s := s.withLevel level) hp]
  | true =>
    cases hr : s.input.rst with
    | true =>
      rw [step_reset hp hr, step_reset (s := s.withLevel level) hp hr]
      rfl
    | false =>
      rw [step_block hp hr ha, step_block (s := s.withLevel level) hp hr ha, blockResult_withLevel hst]

end Sys2Proof.Machine
end

section
/-! The pulse timer run alone (`41_pulse_timer.md` section 2): MEASURE as a function of the sample stream. -/

namespace Sys2Proof.Machine

/-! ### Premises about equal samples -/

/-- A premise about equal samples, one by one. -/
theorem samplesFrom_replicate {s : State} {k n : Nat} {level : Level} :
    SamplesFrom s k (List.replicate n level) ↔ ∀ j < n, (s.inputAt (k + j)).lineIn = level := by
  simp [SamplesFrom]

/-- A premise about one sample. -/
theorem samplesFrom_singleton {s : State} {k : Nat} {level : Level} :
    SamplesFrom s k [level] ↔ (s.inputAt k).lineIn = level := by
  simp [SamplesFrom]

/-- `k` edges and then one more. -/
theorem runEdges_snoc {k : Nat} {s u v : State} (hu : runEdges k s = .next u) (hv : step u = .next v) :
    runEdges (k + 1) s = .next v := by
  rw [runEdges_trans 1 hu, runEdges_step 0 hv, runEdges_zero]

/-! ### The timer alone -/

/-- The timer runs alone on the request {`level`, `timeout`}, in a legal configuration (log 6). -/
structure TimesAlone (level : Level) (timeout : Count) (s : State) : Prop where
  params : legalParams s.params = true
  alone : s.timerAlone = some (ptWord level timeout)
  legal : timeoutLegal timeout = true

section
variable {level : Level} {timeout : Count} {s t : State}

theorem TimesAlone.of_still (h : TimesAlone level timeout s) (e : t.still = s.still) : TimesAlone level timeout t where
  params := State.still_params e ▸ h.params
  alone := (State.still_timerAlone e).trans h.alone
  legal := h.legal

/-- A step is one edge of the measurement. -/
theorem TimesAlone.step (h : TimesAlone level timeout s) (hr : s.input.rst = false) :
    Machine.step s = .next (s.beginEdge.measureEdge level timeout).endEdge := by
  have hlegal : timeoutLegal (ptTimeoutField (ptWord level timeout)) = true := by
    rw [ptTimeoutField_ptWord]
    exact h.legal
  rw [step_timer h.params hr h.alone hlegal, ptLevelField_ptWord, ptTimeoutField_ptWord]

/-- A matching sample within the bound is counted, with no result. -/
theorem TimesAlone.step_count (h : TimesAlone level timeout s) (hr : s.input.rst = false) (hs : s.lineSample = level)
    (hc : s.cnt.toNat + 1 ≤ timeout.toNat) :
    ∃ v, Machine.step s = .next v ∧ v.still = s.still ∧ v.cnt.toNat = s.cnt.toNat + 1 ∧ v.ptres = none := by
  refine ⟨_, h.step hr, ?_⟩
  rw [State.measureEdge_count (s := s.beginEdge) hs hc]
  exact ⟨rfl, cnt_succ_toNat hc, rfl⟩

/-- The result of a differing sample is the count, and the timer is done. -/
theorem TimesAlone.step_duration (h : TimesAlone level timeout s) (hr : s.input.rst = false)
    (hs : s.lineSample ≠ level) :
    ∃ v, Machine.step s = .next v ∧ v.ptres = some (.duration s.cnt) ∧ v.timerAlone = none := by
  refine ⟨_, h.step hr, ?_⟩
  rw [State.measureEdge_of_ne (s := s.beginEdge) timeout hs]
  exact ⟨rfl, rfl⟩

/-- The result of a matching sample past the bound is the timeout, and the timer is done. -/
theorem TimesAlone.step_timeout (h : TimesAlone level timeout s) (hr : s.input.rst = false) (hs : s.lineSample = level)
    (ht : timeout.toNat < s.cnt.toNat + 1) :
    ∃ v, Machine.step s = .next v ∧ v.ptres = some .timeout ∧ v.timerAlone = none := by
  refine ⟨_, h.step hr, ?_⟩
  rw [State.measureEdge_timeout (s := s.beginEdge) hs ht]
  exact ⟨rfl, rfl⟩

/-- Started with `CNT` = 0, matching samples within the bound are counted. -/
theorem TimesAlone.run (h : TimesAlone level timeout s) (hc : s.cnt = 0#15) {n : Nat} (hn : n ≤ timeout.toNat)
    (hr : NoReset n s) (hs : ∀ j < n, (s.inputAt j).lineIn = level) :
    ∀ k ≤ n, ∃ t, runEdges k s = .next t ∧ t.still = s.still ∧ t.cnt.toNat = k := by
  have hzero : s.cnt.toNat = 0 := by rw [hc]; rfl
  have hwait := wait (s := s) n fun k hk u hu hstill hcnt => by
    obtain ⟨v, hv, hvs, hvc, -⟩ := (h.of_still hstill).step_count (hr.at hk hu)
      ((lineSample_after hu).trans (hs k hk)) (by omega)
    exact ⟨v, hv, hvs, hvc⟩
  simpa [hzero] using hwait

/-- None of them gives a result. -/
theorem TimesAlone.run_no_result (h : TimesAlone level timeout s) (hc : s.cnt = 0#15) {n : Nat}
    (hn : n ≤ timeout.toNat) (hr : NoReset n s) (hs : ∀ j < n, (s.inputAt j).lineIn = level) {k : Nat} (hpos : 1 ≤ k)
    (hk : k ≤ n) : ∃ u, runEdges k s = .next u ∧ u.ptres = none ∧ u.cnt.toNat = k := by
  obtain ⟨j, rfl⟩ := Nat.exists_eq_add_of_le' hpos
  obtain ⟨u, hu, hstill, hcnt⟩ := h.run hc hn hr hs j (by omega)
  obtain ⟨v, hv, -, hvc, hres⟩ := (h.of_still hstill).step_count (hr.at hk hu)
    ((lineSample_after hu).trans (hs j hk)) (by omega)
  exact ⟨v, runEdges_snoc hu hv, hres, by omega⟩

/-- A differing sample after them gives their number as the duration. -/
theorem TimesAlone.run_duration (h : TimesAlone level timeout s) (hc : s.cnt = 0#15) {n : Nat}
    (hn : n ≤ timeout.toNat) (hr : NoReset (n + 1) s) (hs : ∀ j < n, (s.inputAt j).lineIn = level)
    (hend : (s.inputAt n).lineIn ≠ level) :
    ∃ t, runEdges (n + 1) s = .next t ∧ t.ptres = some (.duration (BitVec.ofNat 15 n)) ∧ t.timerAlone = none := by
  obtain ⟨u, hu, hstill, hcnt⟩ := h.run hc hn (hr.mono n.le_succ) hs n (Nat.le_refl n)
  obtain ⟨v, hv, hres, hdone⟩ := (h.of_still hstill).step_duration (hr.at n.lt_succ_self hu)
    (by rwa [lineSample_after hu])
  refine ⟨v, runEdges_snoc hu hv, ?_, hdone⟩
  rw [hres, ← hcnt, BitVec.ofNat_toNat, BitVec.setWidth_eq]

/-- One matching sample more than the bound gives the timeout. -/
theorem TimesAlone.run_timeout (h : TimesAlone level timeout s) (hc : s.cnt = 0#15)
    (hr : NoReset (timeout.toNat + 1) s) (hs : ∀ j < timeout.toNat + 1, (s.inputAt j).lineIn = level) :
    ∃ t, runEdges (timeout.toNat + 1) s = .next t ∧ t.ptres = some .timeout ∧ t.timerAlone = none := by
  have hlast := Nat.lt_succ_self timeout.toNat
  obtain ⟨u, hu, hstill, hcnt⟩ := h.run hc (Nat.le_refl _) (hr.mono (Nat.le_succ _))
    (fun j hj => hs j (Nat.lt_succ_of_lt hj)) _ (Nat.le_refl _)
  obtain ⟨v, hv, hres⟩ := (h.of_still hstill).step_timeout (hr.at hlast hu)
    ((lineSample_after hu).trans (hs _ hlast)) (by omega)
  exact ⟨v, runEdges_snoc hu hv, hres⟩

end

/-- Settles O20: the matching samples are counted; the next one is differing, or past the bound. -/
theorem measurementOfASampleStream : Obligations.MeasurementOfASampleStream := by
  intro s level timeout hp ha hlegal hc
  have h : TimesAlone level timeout s := ⟨hp, ha, (timeoutLegal_iff timeout).mpr hlegal⟩
  refine ⟨fun n hn hr hs => ?_, fun hr hs => ?_⟩
  · obtain ⟨hmatch, hend⟩ := hs.split
    rw [samplesFrom_replicate] at hmatch
    rw [List.length_replicate, samplesFrom_singleton] at hend
    simp only [Nat.zero_add] at hmatch hend
    exact ⟨h.run_duration hc hn hr hmatch (by simp [hend]), fun k hpos hk =>
      h.run_no_result hc hn (hr.mono n.le_succ) hmatch hpos hk⟩
  · rw [samplesFrom_replicate] at hs
    simp only [Nat.zero_add] at hs
    refine ⟨h.run_timeout hc hr hs, fun k hpos hk => ?_⟩
    obtain ⟨u, hu, hres, -⟩ := h.run_no_result hc (Nat.le_refl _) (hr.mono (Nat.le_succ _))
      (fun j hj => hs j (Nat.lt_succ_of_lt hj)) hpos hk
    exact ⟨u, hu, hres⟩

end Sys2Proof.Machine
end

section
/-! The request phase of a read attempt (`42_protocol_driver.md` section 2): low, high, released. -/

namespace Sys2Proof.Machine

/-! ### The request phase (`42_protocol_driver.md` section 2) -/

/-- A busy edge, by what its micro-operation does. -/
theorem step_of_microResult {s u : State} {p : Phase} (h : Running s) (hr : s.input.rst = false) (hst : s.st = p)
    (hp : p ≠ .idle) (hu : microResult p (busyState s) = u) : step s = .next u.endEdge := by
  rw [step_block h.params hr h.inBlock, blockResult_busy (hst ▸ hp), hst, hu]

/-- A counting edge of REQ_LOW (R165). -/
theorem reqLow_count {s : State} (h : Running s) (hr : s.input.rst = false) (hst : s.st = .reqLow)
    (hc : s.cnt.toNat + 1 < s.params.tReqLow) :
    ∃ v, step s = .next v ∧ v.still = s.still ∧ v.cnt.toNat = s.cnt.toNat + 1 := by
  obtain ⟨-, hmax, -⟩ := (legalParams_iff s.params).mp h.params
  exact ⟨_, step_of_microResult h hr hst (by simp) (if_neg (Nat.ne_of_lt hc)), rfl,
    cnt_add_one_toNat (c := s.cnt) (by omega)⟩

/-- The last edge of REQ_LOW: the line is driven high (R165). -/
theorem reqLow_end {s : State} (h : Running s) (hr : s.input.rst = false) (hst : s.st = .reqLow)
    (hc : s.cnt.toNat + 1 = s.params.tReqLow) :
    ∃ v, step s = .next v ∧ v.still = { s.still with out := true, st := .reqHigh } ∧ v.cnt = 0#15 :=
  ⟨_, step_of_microResult h hr hst (by simp) (if_pos hc), rfl, rfl⟩

/-- A counting edge of REQ_HIGH (R167). -/
theorem reqHigh_count {s : State} (h : Running s) (hr : s.input.rst = false) (hst : s.st = .reqHigh)
    (hc : s.cnt.toNat + 1 < s.params.tReqHigh) :
    ∃ v, step s = .next v ∧ v.still = s.still ∧ v.cnt.toNat = s.cnt.toNat + 1 := by
  obtain ⟨-, -, -, hmax⟩ := (legalParams_iff s.params).mp h.params
  exact ⟨_, step_of_microResult h hr hst (by simp) (if_neg (Nat.ne_of_lt hc)), rfl,
    cnt_add_one_toNat (c := s.cnt) (by omega)⟩

/-- The last edge of REQ_HIGH: the line is released (R167). -/
theorem reqHigh_end {s : State} (h : Running s) (hr : s.input.rst = false) (hst : s.st = .reqHigh)
    (hc : s.cnt.toNat + 1 = s.params.tReqHigh) :
    ∃ v, step s = .next v ∧ v.still = { s.still with oe := false, st := .ackLow } ∧ v.cnt = 0#15 :=
  ⟨_, step_of_microResult h hr hst (by simp) (if_pos hc), rfl, rfl⟩

theorem AttemptStart.running {s : State} (h : AttemptStart s) : Running s := ⟨h.inv.params, h.inv.inBlock⟩

/-- The state at the edge that turns the line high, without what moves at every edge. -/
def State.turnedHigh (s : State) : State := { s.still with out := true, st := .reqHigh }

/-- The state at the edge that releases the line, without what moves at every edge. -/
def State.released (s : State) : State := { s.still with out := true, oe := false, st := .ackLow }

section
variable {s t : State}

theorem State.st_of_turnedHigh (e : t.still = s.turnedHigh) : t.st = .reqHigh := (congrArg State.st e :)
theorem State.params_of_turnedHigh (e : t.still = s.turnedHigh) : t.params = s.params := (congrArg State.params e :)

theorem Running.of_turnedHigh (h : Running s) (e : t.still = s.turnedHigh) : Running t :=
  ⟨State.params_of_turnedHigh e ▸ h.params, (congrArg State.timerAlone e :).trans h.inBlock⟩

end

section
variable {s : State} (h : AttemptStart s)
include h

/-- The low part of the request: only `CNT` moves. -/
theorem AttemptStart.low (hr : NoReset (releaseEdge s) s) :
    ∀ k < s.params.tReqLow, ∃ t, runEdges k s = .next t ∧ t.still = s.still ∧ t.cnt.toNat = k := by
  have hcnt : s.cnt.toNat = 0 := by rw [h.cnt]; rfl
  have hwait := wait (s := s) (s.params.tReqLow - 1) fun k hk u hu hstill hc =>
    reqLow_count (h.running.of_still hstill) (hr.at (by unfold releaseEdge; omega) hu)
      ((State.still_st hstill).trans h.st) (by rw [State.still_params hstill]; omega)
  intro k hk
  simpa [hcnt] using hwait k (by omega)

/-- The edge that ends it. -/
theorem AttemptStart.turn (hr : NoReset (releaseEdge s) s) :
    ∃ t, runEdges s.params.tReqLow s = .next t ∧ t.still = s.turnedHigh ∧ t.cnt = 0#15 := by
  obtain ⟨hlow, -, hhigh, -⟩ := (legalParams_iff s.params).mp h.inv.params
  obtain ⟨n, hn⟩ := Nat.exists_eq_add_of_le' (show 1 ≤ s.params.tReqLow by omega)
  obtain ⟨u, hu, hstill, hc⟩ := h.low hr n (by omega)
  obtain ⟨v, hv, hvs, hvc⟩ := reqLow_end (h.running.of_still hstill) (hr.at (by unfold releaseEdge; omega) hu)
    ((State.still_st hstill).trans h.st) (by rw [State.still_params hstill]; omega)
  refine ⟨v, hn ▸ runEdges_snoc hu hv, ?_, hvc⟩
  rw [hvs, hstill, State.turnedHigh]

/-- The high part of the request. -/
theorem AttemptStart.high (hr : NoReset (releaseEdge s) s) :
    ∀ k < s.params.tReqHigh,
      ∃ t, runEdges (s.params.tReqLow + k) s = .next t ∧ t.still = s.turnedHigh ∧ t.cnt.toNat = k := by
  obtain ⟨t, ht, hstill, hcnt⟩ := h.turn hr
  have hrun := h.running.of_turnedHigh hstill
  have hparams := State.params_of_turnedHigh hstill
  have hzero : t.cnt.toNat = 0 := by rw [hcnt]; rfl
  have hr' : NoReset s.params.tReqHigh t := hr.after ht
  have hwait := wait (s := t) (s.params.tReqHigh - 1) fun k hk u hu hu' hc =>
    reqHigh_count (hrun.of_still hu') (hr'.at (by omega) hu)
      ((State.still_st hu').trans (State.st_of_turnedHigh hstill)) (by rw [State.still_params hu', hparams]; omega)
  intro k hk
  obtain ⟨u, hu, hu', hc⟩ := hwait k (by omega)
  exact ⟨u, (runEdges_trans k ht).trans hu, hu'.trans hstill, by omega⟩

/-- The edge that releases the line. -/
theorem AttemptStart.release (hr : NoReset (releaseEdge s) s) :
    ∃ t, runEdges (releaseEdge s) s = .next t ∧ t.still = s.released ∧ t.cnt = 0#15 := by
  obtain ⟨-, -, hhigh, -⟩ := (legalParams_iff s.params).mp h.inv.params
  obtain ⟨n, hn⟩ := Nat.exists_eq_add_of_le' (show 1 ≤ s.params.tReqHigh by omega)
  obtain ⟨u, hu, hstill, hc⟩ := h.high hr n (by omega)
  obtain ⟨v, hv, hvs, hvc⟩ := reqHigh_end (h.running.of_turnedHigh hstill)
    (hr.at (by unfold releaseEdge; omega) hu) (State.st_of_turnedHigh hstill)
    (by rw [State.params_of_turnedHigh hstill]; omega)
  have hedge : releaseEdge s = s.params.tReqLow + n + 1 := by unfold releaseEdge; omega
  refine ⟨v, hedge ▸ runEdges_snoc hu hv, ?_, hvc⟩
  rw [hvs, hstill, State.turnedHigh, State.released]

/-- What is driven after some edges of an attempt, by the state reached. -/
theorem AttemptStart.driven {k : Nat} {t : State} (ht : runEdges k s = .next t) :
    t.driven = if t.st.drive.1 then some t.st.drive.2 else none :=
  (runEdges_lineFollowsPhase h.inv ht).driven_eq

end

/-- Settles O52: the three parts of the request phase; the drive of the line follows `ST`. -/
theorem requestPhaseDrivesTheLine : Obligations.RequestPhaseDrivesTheLine := by
  refine fun s h hr => ⟨fun k hk => ?_, fun k hk => ?_, ?_⟩
  · obtain ⟨t, ht, hstill, hc⟩ := h.low hr k hk
    have hst : t.st = .reqLow := (State.still_st hstill).trans h.st
    exact ⟨t, ht, hst, hc, by rw [h.driven ht, hst]; rfl⟩
  · obtain ⟨t, ht, hstill, hc⟩ := h.high hr k hk
    have hst := State.st_of_turnedHigh hstill
    exact ⟨t, ht, hst, hc, by rw [h.driven ht, hst]; rfl⟩
  · obtain ⟨t, ht, hstill, hc⟩ := h.release hr
    have hst : t.st = .ackLow := (congrArg State.st hstill :)
    exact ⟨t, ht, hst, hc, (congrArg State.bitidx hstill :).trans h.bitidx, by rw [h.driven ht, hst]; rfl⟩

end Sys2Proof.Machine
end

section
/-! A whole read attempt (`42_protocol_driver.md` section 7): the runs of the reply one after another, and the two ways
in which an attempt ends. -/

namespace Sys2Proof.Machine

/-! ### Edges of a running attempt -/

/-- Before each of the next `n` edges the attempt is running: the block is busy and `DONE` is 0. -/
def BusyFor (n : Nat) (s : State) : Prop := ∀ k < n, ∃ u, runEdges k s = .next u ∧ u.done = false ∧ u.st ≠ .idle

theorem BusyFor.zero (s : State) : BusyFor 0 s := fun _ hk => absurd hk (Nat.not_lt_zero _)

/-- `j` such edges and then `k` more. -/
theorem BusyFor.trans {j k : Nat} {s t : State} (hs : BusyFor j s) (h : runEdges j s = .next t) (ht : BusyFor k t) :
    BusyFor (j + k) s := by
  intro i hi
  by_cases hij : i < j
  · exact hs i hij
  · obtain ⟨m, rfl⟩ := Nat.exists_eq_add_of_le (Nat.not_lt.mp hij)
    rw [runEdges_trans m h]
    exact ht m (by omega)

/-- One such edge. -/
theorem BusyFor.one {s : State} (hdone : s.done = false) (hst : s.st ≠ .idle) : BusyFor 1 s := fun k hk => by
  obtain rfl : k = 0 := by omega
  exact ⟨s, runEdges_zero s, hdone, hst⟩

/-- While only `CNT` moves the attempt goes on. -/
theorem BusyFor.of_still {n : Nat} {s : State} (hdone : s.done = false) (hst : s.st ≠ .idle)
    (h : ∀ k < n, ∃ t, runEdges k s = .next t ∧ t.still = s.still) : BusyFor n s := fun k hk => by
  obtain ⟨t, ht, hstill⟩ := h k hk
  exact ⟨t, ht, (State.still_done hstill).trans hdone, State.still_st hstill ▸ hst⟩

/-- While busy a state that meets the invariant has `DONE` = 0 (R47). -/
theorem BlockInv.done_eq_false {s : State} (h : BlockInv s) (hst : s.st ≠ .idle) : s.done = false :=
  eq_false_of_ne_true fun hdone => hst (h.done hdone)

/-- The attempt is running for as long as the request phase takes. -/
theorem AttemptStart.busyFor_release {s : State} (h : AttemptStart s) (hr : NoReset (releaseEdge s) s) :
    BusyFor (releaseEdge s) s := by
  have hbusy : ∀ {k : Nat} {t : State}, runEdges k s = .next t → t.st ≠ .idle → t.done = false ∧ t.st ≠ .idle :=
    fun ht hst => ⟨(runEdges_blockInv h.inv ht).done_eq_false hst, hst⟩
  intro k hk
  by_cases hlow : k < s.params.tReqLow
  · obtain ⟨t, ht, hstill, -⟩ := h.low hr k hlow
    exact ⟨t, ht, hbusy ht (by rw [State.still_st hstill, h.st]; simp)⟩
  · obtain ⟨m, rfl⟩ := Nat.exists_eq_add_of_le (Nat.not_lt.mp hlow)
    obtain ⟨t, ht, hstill, -⟩ := h.high hr m (by unfold releaseEdge at hk; omega)
    exact ⟨t, ht, hbusy ht (by rw [State.st_of_turnedHigh hstill]; simp)⟩

/-- At the release the measurement of run 0 starts. -/
theorem AttemptStart.inRun_zero {s : State} (h : AttemptStart s) (hr : NoReset (releaseEdge s) s) :
    ∃ t, runEdges (releaseEdge s) s = .next t ∧ InRun 0 t ∧ t.hum = s.hum ∧ t.temp = s.temp := by
  obtain ⟨t, ht, hstill, hcnt⟩ := h.release hr
  have hst : t.st = .ackLow := (congrArg State.st hstill :)
  have hinv := runEdges_blockInv h.inv ht
  have hbit : t.bitidx = s.bitidx := (congrArg State.bitidx hstill :)
  refine ⟨t, ht, ⟨⟨hinv.params, hinv.inBlock⟩, by omega, hst, by rw [hcnt]; rfl, ?_, ?_⟩,
    (congrArg State.hum hstill :), (congrArg State.temp hstill :)⟩
  · rw [hbit, h.bitidx]
    rfl
  · exact hinv.done_eq_false (by simp [hst])

/-! ### The lengths and the samples of a reply (R185) -/

/-- The number of samples before run `j` of a reply. -/
def runOnset (ds : List Nat) (j : Nat) : Nat := (ds.take j).sum

theorem runOnset_zero (ds : List Nat) : runOnset ds 0 = 0 := by simp [runOnset]

theorem runOnset_succ {ds : List Nat} {j : Nat} (h : j < ds.length) : runOnset ds (j + 1) = runOnset ds j + ds[j] :=
  List.sum_take_succ ds j h

theorem runOnset_le_sum (ds : List Nat) (j : Nat) : runOnset ds j ≤ ds.sum := by
  conv_rhs => rw [← List.take_append_drop j ds, List.sum_append]
  exact Nat.le_add_right _ _

theorem runOnset_length (ds : List Nat) : runOnset ds ds.length = ds.sum := by simp [runOnset]

/-- Runs within their bounds, one by one: run `j` has the samples that its measurement starts with, and no more than its
bound. -/
theorem RunsWithin.getElem {m : Nat} {ds : List Nat} (h : RunsWithin m ds) {j : Nat} (hj : j < ds.length) :
    runStart (m + j) ≤ ds[j] ∧ ds[j] ≤ runBound (m + j) := by
  induction ds generalizing m j with
  | nil => exact absurd hj (Nat.not_lt_zero _)
  | cons d ds ih =>
    obtain ⟨hpos, hle, hrest⟩ := h
    cases j with
    | zero =>
      refine ⟨?_, hle⟩
      show runStart m ≤ d
      unfold runStart
      split_ifs <;> omega
    | succ j =>
      have hrun := ih hrest (Nat.lt_of_succ_lt_succ hj)
      rwa [Nat.add_right_comm] at hrun

/-- The samples of a waveform, one by one: those of run `j` come after those of the runs before it. -/
theorem SamplesFrom.waveform {s : State} {p m : Nat} {ds : List Nat} (h : SamplesFrom s p (waveform m ds)) {j : Nat}
    (hj : j < ds.length) {i : Nat} (hi : i < ds[j]) :
    (s.inputAt (p + runOnset ds j + i)).lineIn = runLevel (m + j) := by
  induction ds generalizing p m j with
  | nil => exact absurd hj (Nat.not_lt_zero _)
  | cons d ds ih =>
    obtain ⟨hrun, hrest⟩ := SamplesFrom.split (show SamplesFrom s p (List.replicate d (runLevel m) ++ _) from h)
    cases j with
    | zero =>
      rw [runOnset_zero]
      exact samplesFrom_replicate.mp hrun i hi
    | succ j =>
      rw [List.length_replicate] at hrest
      have hsample := ih hrest (Nat.lt_of_succ_lt_succ hj) hi
      rw [show p + d + runOnset ds j + i = p + runOnset (d :: ds) (j + 1) + i by simp [runOnset]; omega,
        Nat.add_right_comm m 1 j] at hsample
      exact hsample

/-- A reply with one more run at its end. -/
theorem waveform_concat (m : Nat) (ds : List Nat) (x : Nat) :
    waveform m (ds ++ [x]) = waveform m ds ++ List.replicate x (runLevel (m + ds.length)) := by
  induction ds generalizing m with
  | nil => simp [waveform]
  | cons d ds ih =>
    simp only [List.cons_append, waveform, ih, List.append_assoc, List.length_cons]
    rw [Nat.add_right_comm, Nat.add_assoc]

/-- What the block is given from the release on: runs `ds` within their bounds, and then one more of `x` samples, of
which nothing is known; no reset before its end. -/
structure Reply (ds : List Nat) (x : Nat) (s : State) : Prop where
  within : RunsWithin 0 ds
  pos : 1 ≤ x
  samples : SamplesFrom s 0 (waveform 0 (ds ++ [x]))
  noReset : NoReset (ds.sum + x) s

section
variable {ds : List Nat} {x : Nat} {s : State} (h : Reply ds x s)
include h

/-- The samples of a run before the last one. -/
theorem Reply.sample {j : Nat} (hj : j < ds.length) {i : Nat} (hi : i < ds[j]) :
    (s.inputAt (runOnset ds j + i)).lineIn = runLevel j := by
  have hsample := h.samples.waveform (j := j) (by rw [List.length_append]; omega) (i := i)
    (by rwa [List.getElem_append_left hj])
  rwa [Nat.zero_add, Nat.zero_add, runOnset, List.take_append_of_le_length (by omega)] at hsample

/-- The samples of the last run. -/
theorem Reply.sample_last {i : Nat} (hi : i < x) : (s.inputAt (ds.sum + i)).lineIn = runLevel ds.length := by
  have hsample := h.samples.waveform (j := ds.length) (by simp) (i := i) (by simpa using hi)
  simpa [runOnset] using hsample

/-- The sample that ends run `j` is the first one of run `j + 1`. -/
theorem Reply.sample_next {j : Nat} (hj : j < ds.length) :
    (s.inputAt (runOnset ds (j + 1))).lineIn = runLevel (j + 1) := by
  by_cases hlast : j + 1 < ds.length
  · obtain ⟨hpos, -⟩ := h.within.getElem hlast
    exact h.sample hlast (i := 0) (by simp [runStart] at hpos; omega)
  · obtain heq : j + 1 = ds.length := by omega
    have hsample := h.sample_last (i := 0) h.pos
    rwa [Nat.add_zero, ← runOnset_length, ← heq] at hsample

end

/-! ### The runs of a reply one after another -/

/-- Data bits 0, 1, ... as far as runs before run `j` decide them (R175). -/
def DecodedBefore (ds : List Nat) (j : Nat) (f : Frame) : Prop :=
  ∀ n : Fin 40, 2 * n.val + 3 < j → f.bit n = decide (40 < ds.getD (2 * n.val + 3) 0)

theorem decodedBefore_zero (ds : List Nat) (f : Frame) : DecodedBefore ds 0 f :=
  fun _ hn => absurd hn (Nat.not_lt_zero _)

/-- The end of run `j` decides the bit of that run, if it has one, and leaves the bits before it alone. -/
theorem DecodedBefore.succ {ds : List Nat} {j : Nat} {s : State} (h : DecodedBefore ds j s.frame) (hrun : InRun j s)
    (hj : j < ds.length) : DecodedBefore ds (j + 1) (frameAfterRun j ds[j] s) := by
  have hidx := hrun.bitidx
  intro n hn
  unfold frameAfterRun
  split_ifs with hodd
  · by_cases hnj : 2 * n.val + 3 = j
    · have hn' : n = s.bitidx := Fin.ext (by omega)
      rw [← hn', Frame.bit_writeBit_same, hnj, List.getD_eq_getElem _ _ hj]
    · have hn' : n ≠ s.bitidx := fun he => by
        have := congrArg Fin.val he
        omega
      rw [Frame.bit_writeBit_ne _ _ hn']
      exact h n (by omega)
  · exact h n (by omega)

/-- The edge at which the measurement of run `j` starts, counted from the release: its first sample is the one that ends
run `j - 1`, which is counted by handover (R148). -/
def runEdge (ds : List Nat) (j : Nat) : Nat := runOnset ds j + runStart j

/-- What the block has done when the measurement of run `j` starts. -/
structure Received (ds : List Nat) (j : Nat) (s v : State) : Prop where
  run : runEdges (runEdge ds j) s = .next v
  inRun : InRun j v
  hum : v.hum = s.hum
  temp : v.temp = s.temp
  decoded : DecodedBefore ds j v.frame
  busy : BusyFor (runEdge ds j) s

section
variable {ds : List Nat} {x j n : Nat} {s v : State}

/-- While run `j` lasts, and its bound is not passed, only `CNT` moves. -/
theorem Received.count (hv : Received ds j s v) (hr : NoReset (runOnset ds j + n) s)
    (hs : ∀ i < n, (s.inputAt (runOnset ds j + i)).lineIn = runLevel j) (hstart : runStart j ≤ n)
    (hn : n ≤ runBound j) :
    (∃ t, runEdges (runOnset ds j + n) s = .next t ∧ t.still = v.still ∧ t.cnt.toNat = n) ∧
      BusyFor (runOnset ds j + n + 1) s := by
  obtain ⟨m, rfl⟩ := Nat.exists_eq_add_of_le hstart
  have hsplit : runOnset ds j + (runStart j + m) = runEdge ds j + m := by unfold runEdge; omega
  have hcount := hv.inRun.count (n := m) ((hsplit ▸ hr).after hv.run)
    (fun i hi => by
      rw [runEdges_inputAt hv.run, runEdge, Nat.add_assoc]
      exact hs _ (by omega)) hn
  have hstill : ∀ k < m + 1, ∃ t, runEdges k v = .next t ∧ t.still = v.still := fun k hk => by
    obtain ⟨t, ht, hts, -⟩ := hcount k (by omega)
    exact ⟨t, ht, hts⟩
  obtain ⟨t, ht, hts, htc⟩ := hcount m (Nat.le_refl m)
  rw [hsplit, Nat.add_assoc (runEdge ds j) m 1]
  refine ⟨⟨t, (runEdges_trans m hv.run).trans ht, hts, htc⟩, hv.busy.trans hv.run ?_⟩
  exact .of_still hv.inRun.done (hv.inRun.st ▸ runPhase_ne_idle j) hstill

/-- A run within its bound is followed up to its end, where the next sample is the first of the next run. -/
theorem Received.finish (h : Reply ds x s) (hv : Received ds j s v) (hj : j < ds.length) :
    (∃ t, runEdges (runOnset ds (j + 1)) s = .next t ∧ t.still = v.still ∧ t.cnt.toNat = ds[j] ∧
      t.input.rst = false ∧ t.lineSample = runLevel (j + 1)) ∧ BusyFor (runOnset ds (j + 1) + 1) s := by
  obtain ⟨hstart, hbound⟩ := h.within.getElem hj
  rw [Nat.zero_add] at hstart hbound
  have hle := runOnset_le_sum ds (j + 1)
  have hpos := h.pos
  have honset := runOnset_succ hj
  obtain ⟨⟨t, ht, hts, htc⟩, hbusy⟩ := hv.count (h.noReset.mono (by omega)) (fun i hi => h.sample hj hi) hstart hbound
  rw [← honset] at ht hbusy
  exact ⟨⟨t, ht, hts, htc, h.noReset.at (by omega) ht, (lineSample_after ht).trans (h.sample_next hj)⟩, hbusy⟩

/-- The measurement of the next run starts. -/
theorem Received.next (h : Reply ds x s) (hv : Received ds j s v) (hj : j < ds.length) (hj' : j < 81) :
    ∃ w, Received ds (j + 1) s w := by
  obtain ⟨⟨t, ht, hts, htc, hr, hs⟩, hbusy⟩ := hv.finish h hj
  obtain ⟨w, hw, hrun, hum, htemp, hframe⟩ := hv.inRun.next hj' hts htc hr hs
  exact ⟨w, runEdges_snoc ht hw, hrun, hum.trans hv.hum, htemp.trans hv.temp,
    hframe ▸ hv.decoded.succ hv.inRun hj, hbusy⟩

/-- From the start of run 0 on every run of the reply is reached. -/
theorem Reply.received (h : Reply ds x s) (hs : InRun 0 s) : ∀ j ≤ ds.length, j ≤ 81 → ∃ v, Received ds j s v := by
  intro j
  induction j with
  | zero =>
    exact fun _ _ => ⟨s, by rw [runEdge, runOnset_zero]; rfl, hs, rfl, rfl, decodedBefore_zero ds s.frame,
      by rw [runEdge, runOnset_zero]; exact .zero s⟩
  | succ j ih =>
    intro hj hj'
    obtain ⟨v, hv⟩ := ih (by omega) (by omega)
    exact hv.next h hj (by omega)

end

/-! ### The end of an attempt -/

/-- The edge of VALIDATE ends the attempt, on the frame that it finds (R179). -/
theorem validate_step {s : State} (h : Running s) (hr : s.input.rst = false) (hst : s.st = .validate) :
    ∃ t, step s = .next t ∧ t.done = true ∧ t.st = .idle ∧ t.frame = s.frame ∧
      (s.frame.b4 = s.frame.checksum → t.outcome = .ok ∧ t.hum = s.frame.b0 ∧ t.temp = s.frame.b2) ∧
      (s.frame.b4 ≠ s.frame.checksum → t.outcome = .checksumError ∧ t.hum = s.hum ∧ t.temp = s.temp) := by
  by_cases hsum : s.frame.b4 = s.frame.checksum
  · exact ⟨_, step_of_microResult h hr hst (by simp) (if_pos hsum), rfl, rfl, rfl, fun _ => ⟨rfl, rfl, rfl⟩,
      fun hne => absurd hsum hne⟩
  · exact ⟨_, step_of_microResult h hr hst (by simp) (if_neg hsum), rfl, rfl, rfl, fun he => absurd he hsum,
      fun _ => ⟨rfl, rfl, rfl⟩⟩

/-- How VALIDATE ended an attempt on the reply `ds`: the checksum of the decoded frame decides the outcome. -/
structure EndsDecoded (ds : List Nat) (s t : State) : Prop where
  done : t.done = true
  st : t.st = .idle
  decoded : DecodedBefore ds 82 t.frame
  right : t.frame.b4 = t.frame.checksum → t.outcome = .ok ∧ t.hum = t.frame.b0 ∧ t.temp = t.frame.b2
  wrong : t.frame.b4 ≠ t.frame.checksum → t.outcome = .checksumError ∧ t.hum = s.hum ∧ t.temp = s.temp

/-- How Timeout ended an attempt. -/
structure EndsTimedOut (s t : State) : Prop where
  done : t.done = true
  st : t.st = .idle
  outcome : t.outcome = .timeoutError
  cnt : t.cnt = 0#15
  hum : t.hum = s.hum
  temp : t.temp = s.temp

section
variable {ds : List Nat} {x : Nat} {s : State}

/-- A complete reply is decoded, and VALIDATE ends the attempt. -/
theorem Reply.endsDecoded (h : Reply ds x s) (hs : InRun 0 s) (hlen : ds.length = 82) (hr : NoReset (ds.sum + 2) s) :
    BusyFor (ds.sum + 2) s ∧ ∃ t, runEdges (ds.sum + 2) s = .next t ∧ EndsDecoded ds s t := by
  obtain ⟨v, hv⟩ := h.received hs 81 (by omega) (Nat.le_refl _)
  have hj : 81 < ds.length := by omega
  obtain ⟨⟨u, hu, hus, huc, hur, hul⟩, hbusy⟩ := hv.finish h hj
  obtain ⟨w, hw, hrun, hst, hdone, hum, htemp, hframe⟩ := hv.inRun.last hus huc hur hul
  have honset : runOnset ds (81 + 1) = ds.sum := by rw [← runOnset_length, hlen]
  rw [honset] at hu hbusy
  have hwrun := runEdges_snoc hu hw
  obtain ⟨t, ht, htdone, htst, htframe, hright, hwrong⟩ := validate_step hrun (hr.at (Nat.lt_succ_self _) hwrun) hst
  have hdecoded := hframe ▸ hv.decoded.succ hv.inRun hj
  refine ⟨hbusy.trans hwrun (.one hdone (by simp [hst])), t, runEdges_snoc hwrun ht, htdone, htst,
    htframe ▸ hdecoded, fun hsum => ?_, fun hsum => ?_⟩
  · rw [htframe] at hsum ⊢
    exact hright hsum
  · rw [htframe] at hsum
    obtain ⟨hout, hhum, hht⟩ := hwrong hsum
    exact ⟨hout, (hhum.trans hum).trans hv.hum, (hht.trans htemp).trans hv.temp⟩

/-- A reply whose last run is longer than its bound times out at that run's sample past the bound. -/
theorem Reply.endsTimedOut (h : Reply ds (runBound ds.length + 1) s) (hs : InRun 0 s) (hlen : ds.length < 82) :
    BusyFor (ds.sum + runBound ds.length + 1) s ∧
      ∃ t, runEdges (ds.sum + runBound ds.length + 1) s = .next t ∧ EndsTimedOut s t := by
  obtain ⟨v, hv⟩ := h.received hs ds.length (Nat.le_refl _) (by omega)
  have honset := runOnset_length ds
  have hlast : ∀ i < runBound ds.length + 1, (s.inputAt (runOnset ds ds.length + i)).lineIn = runLevel ds.length :=
    fun i hi => honset.symm ▸ h.sample_last hi
  obtain ⟨⟨u, hu, hus, huc⟩, hbusy⟩ := hv.count (n := runBound ds.length) (h.noReset.mono (by omega))
    (fun i hi => hlast i (by omega)) (Nat.le_of_lt (runStart_lt_runBound _)) (Nat.le_refl _)
  rw [honset] at hu hbusy
  obtain ⟨t, ht, hdone, hst, hout, hcnt, hum, htemp⟩ := hv.inRun.timeout hus huc (h.noReset.at (by omega) hu)
    ((lineSample_after hu).trans (h.sample_last (Nat.lt_succ_self _)))
  exact ⟨hbusy, t, runEdges_snoc hu ht, hdone, hst, hout, hcnt, hum.trans hv.hum, htemp.trans hv.temp⟩

/-- What an attempt is given from the release on. -/
theorem AttemptStart.reply (h : AttemptStart s) (hw : RunsWithin 0 ds) (hx : 1 ≤ x)
    (hs : SamplesFrom s (releaseEdge s) (waveform 0 (ds ++ [x]))) (hr : NoReset (releaseEdge s + (ds.sum + x)) s) :
    ∃ u, runEdges (releaseEdge s) s = .next u ∧ InRun 0 u ∧ Reply ds x u ∧ u.hum = s.hum ∧ u.temp = s.temp := by
  obtain ⟨u, hu, hrun, hum, htemp⟩ := h.inRun_zero (hr.mono (Nat.le_add_right _ _))
  exact ⟨u, hu, hrun, ⟨hw, hx, SamplesFrom.after (k := releaseEdge s) (n := 0) hs hu, hr.after hu⟩, hum, htemp⟩

/-- An attempt on a complete reply. -/
theorem AttemptStart.endsDecoded (h : AttemptStart s) (hw : RunsWithin 0 ds) (hlen : ds.length = 82)
    (hs : SamplesFrom s (releaseEdge s) (waveform 0 (ds ++ [1]))) (hr : NoReset (releaseEdge s + ds.sum + 2) s) :
    BusyFor (releaseEdge s + ds.sum + 2) s ∧
      ∃ t, runEdges (releaseEdge s + ds.sum + 2) s = .next t ∧ EndsDecoded ds s t := by
  rw [Nat.add_assoc] at hr ⊢
  obtain ⟨u, hu, hrun, hreply, hum, htemp⟩ := h.reply hw (Nat.le_refl 1) hs (hr.mono (by omega))
  obtain ⟨hbusy, t, ht, hend⟩ := hreply.endsDecoded hrun hlen (hr.after hu)
  refine ⟨(h.busyFor_release (hr.mono (by omega))).trans hu hbusy, t, (runEdges_trans _ hu).trans ht,
    { hend with wrong := ?_ }⟩
  rw [← hum, ← htemp]
  exact hend.wrong

/-- An attempt on a reply with an overlong run. -/
theorem AttemptStart.endsTimedOut (h : AttemptStart s) (hw : RunsWithin 0 ds) (hlen : ds.length < 82)
    (hs : SamplesFrom s (releaseEdge s) (waveform 0 (ds ++ [runBound ds.length + 1])))
    (hr : NoReset (releaseEdge s + ds.sum + runBound ds.length + 1) s) :
    BusyFor (releaseEdge s + ds.sum + runBound ds.length + 1) s ∧
      ∃ t, runEdges (releaseEdge s + ds.sum + runBound ds.length + 1) s = .next t ∧ EndsTimedOut s t := by
  have hsplit : releaseEdge s + ds.sum + runBound ds.length + 1 =
      releaseEdge s + (ds.sum + runBound ds.length + 1) := by omega
  rw [hsplit] at hr ⊢
  obtain ⟨u, hu, hrun, hreply, hum, htemp⟩ := h.reply hw (Nat.le_add_left 1 _) hs hr
  obtain ⟨hbusy, t, ht, hend⟩ := hreply.endsTimedOut hrun hlen
  exact ⟨(h.busyFor_release (hr.mono (Nat.le_add_right _ _))).trans hu hbusy, t, (runEdges_trans _ hu).trans ht,
    { hend with hum := hend.hum.trans hum, temp := hend.temp.trans htemp }⟩

end

/-- While the attempt is running `DONE` is 0. -/
theorem BusyFor.not_done {n : Nat} {s : State} (h : BusyFor n s) :
    ∀ k < n, ∃ u, runEdges k s = .next u ∧ u.done = false := fun k hk => by
  obtain ⟨u, hu, hdone, -⟩ := h k hk
  exact ⟨u, hu, hdone⟩

/-- Settles O53: the reply with its low sample is 82 runs and one more; the checksum in natural numbers. -/
theorem wellFormedReplyIsDecoded : Obligations.WellFormedReplyIsDecoded := by
  intro s ds hlen h hw hs hr
  have hwave : waveform 0 (ds ++ [1]) = waveform 0 ds ++ [false] := by
    rw [waveform_concat, hlen]
    rfl
  obtain ⟨hbusy, t, ht, hend⟩ := h.endsDecoded hw hlen (hwave ▸ hs) hr
  refine ⟨hbusy.not_done, t, ht, hend.done, hend.st, fun n => ?_, fun hsum => ?_, fun hsum => ?_⟩
  · rw [hend.decoded n (by omega), List.getD_eq_getElem]
  · exact hend.right (t.frame.checksum_matches_iff.mpr hsum)
  · exact hend.wrong (mt t.frame.checksum_matches_iff.mp hsum)

/-- Settles O54: the overlong run is one more run after those within their bounds. -/
theorem overlongRunTimesOut : Obligations.OverlongRunTimesOut := by
  intro s ds hlen h hw hs hr
  have hwave := waveform_concat 0 ds (runBound ds.length + 1)
  rw [Nat.zero_add] at hwave
  obtain ⟨hbusy, t, ht, hend⟩ := h.endsTimedOut hw hlen (hwave ▸ hs) hr
  exact ⟨hbusy.not_done, t, ht, hend.done, hend.st, hend.outcome, hend.cnt, hend.hum, hend.temp⟩

end Sys2Proof.Machine
end

section
/-! The bounds on an attempt (`70_reset_and_hazards.md` section 4): every stream of samples is one of the two kinds of
reply, and the lengths of the runs bound it. -/

namespace Sys2Proof.Machine

/-! ### Every stream of samples is a reply (`70_reset_and_hazards.md` section 4) -/

/-- A premise about two lists of samples, one after the other, is one about the whole. -/
theorem SamplesFrom.append {s : State} {k : Nat} {ls ms : List Level} (hl : SamplesFrom s k ls)
    (hm : SamplesFrom s (k + ls.length) ms) : SamplesFrom s k (ls ++ ms) := by
  intro j hj
  by_cases hjl : j < ls.length
  · rw [List.getElem_append_left hjl]
    exact hl j hjl
  · obtain ⟨i, rfl⟩ := Nat.exists_eq_add_of_le (Nat.not_lt.mp hjl)
    rw [List.length_append] at hj
    rw [List.getElem_append_right (Nat.le_add_right _ _), ← Nat.add_assoc, hm i (by omega)]
    simp

/-- A reply of runs `j`, `j + 1`, ..., `j + m - 1`, at sample `p`: all of them within their bounds, with one sample of
the next run, or some of them and then a run longer than its bound. -/
def HasReply (s : State) (p j m : Nat) : Prop :=
  ∃ ds x, RunsWithin j ds ∧ SamplesFrom s p (waveform j (ds ++ [x])) ∧
    ((ds.length = m ∧ x = 1) ∨ (ds.length < m ∧ x = runBound (j + ds.length) + 1))

/-- A run longer than its bound is a reply by itself. -/
theorem hasReply_of_overlong {s : State} {p j m : Nat}
    (h : ∀ i < runBound j + 1, (s.inputAt (p + i)).lineIn = runLevel j) : HasReply s p j (m + 1) := by
  refine ⟨[], runBound j + 1, trivial, ?_, .inr ⟨m.succ_pos, rfl⟩⟩
  rw [waveform_concat]
  exact samplesFrom_replicate.mpr h

/-- A run within its bound, and a reply after it. -/
theorem HasReply.cons {s : State} {p j m d : Nat} (h : HasReply s (p + d) (j + 1) m) (hpos : j = 0 ∨ 1 ≤ d)
    (hd : d ≤ runBound j) (hs : ∀ i < d, (s.inputAt (p + i)).lineIn = runLevel j) : HasReply s p j (m + 1) := by
  obtain ⟨ds, x, hw, hrest, hend⟩ := h
  refine ⟨d :: ds, x, ⟨hpos, hd, hw⟩,
    (samplesFrom_replicate.mpr hs).append (by rwa [List.length_replicate]), hend.imp ?_ ?_⟩
  · exact fun ⟨hlen, hx⟩ => ⟨congrArg Nat.succ hlen, hx⟩
  · exact fun ⟨hlen, hx⟩ => ⟨Nat.succ_lt_succ hlen, by rw [hx, List.length_cons]; congr 2; omega⟩

/-- A level that is not that of run `j` is that of run `j + 1`. -/
theorem eq_runLevel_succ {level : Level} {j : Nat} (h : level ≠ runLevel j) : level = runLevel (j + 1) :=
  (Bool.eq_not.mpr h).trans (Bool.eq_not.mpr (runLevel_ne j)).symm

/-- Whatever the samples are, from the first one of a run on they are a reply: by the first sample that differs. -/
theorem hasReply (s : State) : ∀ (m j p : Nat), (j = 0 ∨ (s.inputAt p).lineIn = runLevel j) → (j = 0 → m ≠ 0) →
    HasReply s p j m := by
  intro m
  induction m with
  | zero =>
    intro j p hfirst hne
    have hsample := hfirst.resolve_left fun hj => hne hj rfl
    refine ⟨[], 1, trivial, ?_, .inl ⟨rfl, rfl⟩⟩
    rw [waveform_concat]
    exact samplesFrom_singleton.mpr hsample
  | succ m ih =>
    intro j p hfirst _
    by_cases hall : ∀ i < runBound j + 1, (s.inputAt (p + i)).lineIn = runLevel j
    · exact hasReply_of_overlong hall
    · push Not at hall
      obtain ⟨i, hi, hne⟩ := hall
      have hex : ∃ d, (s.inputAt (p + d)).lineIn ≠ runLevel j := ⟨i, hne⟩
      have hmatch : ∀ d < Nat.find hex, (s.inputAt (p + d)).lineIn = runLevel j := fun d hd =>
        not_not.mp (Nat.find_min hex hd)
      have hpos : j = 0 ∨ 1 ≤ Nat.find hex := hfirst.imp_right fun hs =>
        (Nat.find_pos hex).mpr fun hdiffers => hdiffers hs
      have hbound : Nat.find hex ≤ i := Nat.find_min' hex hne
      exact (ih (j + 1) _ (.inr (eq_runLevel_succ (Nat.find_spec hex))) (by omega)).cons hpos (by omega) hmatch

/-! ### How long a reply can be -/

/-- The most samples that the runs before run `j` can have. -/
def boundsBefore (j : Nat) : Nat := ∑ i ∈ Finset.range j, runBound i

theorem boundsBefore_succ (j : Nat) : boundsBefore (j + 1) = boundsBefore j + runBound j :=
  Finset.sum_range_succ runBound j

theorem boundsBefore_mono : Monotone boundsBefore :=
  monotone_nat_of_le_succ fun j => boundsBefore_succ j ▸ Nat.le_add_right _ _

/-- R260: the bounds of all 82 runs together. -/
theorem boundsBefore_82 : boundsBefore 82 = 5410 := by decide

/-- Runs within their bounds are together within the bounds together. -/
theorem RunsWithin.sum_le {j : Nat} {ds : List Nat} (h : RunsWithin j ds) :
    boundsBefore j + ds.sum ≤ boundsBefore (j + ds.length) := by
  induction ds generalizing j with
  | nil => exact Nat.le_refl _
  | cons d ds ih =>
    obtain ⟨-, hd, hrest⟩ := h
    have hsum := ih hrest
    rw [boundsBefore_succ, Nat.add_right_comm j 1] at hsum
    show boundsBefore j + (d + ds.sum) ≤ boundsBefore (j + ds.length + 1)
    omega

/-- Runs of which only run 0 may be empty have at least one sample each but for that one. -/
theorem RunsWithin.length_le {j : Nat} {ds : List Nat} (h : RunsWithin j ds) :
    ds.length + runStart j ≤ ds.sum + 1 := by
  induction ds generalizing j with
  | nil => unfold runStart; split_ifs <;> simp
  | cons d ds ih =>
    obtain ⟨hpos, -, hrest⟩ := h
    have hsum := ih hrest
    rw [List.sum_cons, List.length_cons]
    unfold runStart at *
    split_ifs at * <;> omega

/-- An attempt that times out takes at least 57 samples and the one past the bound: run 2 is the shortest that can. -/
theorem RunsWithin.le_sum_add_runBound {ds : List Nat} (h : RunsWithin 0 ds) :
    57 ≤ ds.sum + runBound ds.length := by
  have hlen : ds.length + 0 ≤ ds.sum + 1 := h.length_le
  unfold runBound
  split_ifs <;> omega

/-- The outcome of an attempt that VALIDATE ended is not the timeout. -/
theorem EndsDecoded.outcome_ne {ds : List Nat} {s t : State} (h : EndsDecoded ds s t) : t.outcome ≠ .timeoutError := by
  by_cases hsum : t.frame.b4 = t.frame.checksum
  · obtain ⟨hok, -⟩ := h.right hsum
    simp [hok]
  · obtain ⟨hwrong, -⟩ := h.wrong hsum
    simp [hwrong]

/-- Settles O55: whatever the samples are, they are a complete reply or have an overlong run, and either ends the
attempt. -/
theorem everyAttemptEndsWithinItsBounds : Obligations.EveryAttemptEndsWithinItsBounds := by
  intro s h hr
  obtain ⟨ds, x, hw, hs, hend⟩ := hasReply s 82 0 (releaseEdge s) (.inl rfl) (by simp)
  have hmin : ds.length + 0 ≤ ds.sum + 1 := hw.length_le
  have hmax := hw.sum_le
  have htotal := boundsBefore_82
  rw [show boundsBefore 0 = 0 from rfl, Nat.zero_add, Nat.zero_add] at hmax
  obtain ⟨hlen, rfl⟩ | ⟨hlen, rfl⟩ := hend
  · rw [hlen] at hmin hmax
    obtain ⟨hbusy, t, ht, hended⟩ := h.endsDecoded hw hlen hs (hr.mono (by omega))
    exact ⟨_, t, by omega, by omega, ht, hended.done, hended.st, fun hto => absurd hto hended.outcome_ne,
      fun _ => by omega, hbusy⟩
  · rw [Nat.zero_add] at hs
    have hlast := boundsBefore_succ ds.length ▸ boundsBefore_mono (show ds.length + 1 ≤ 82 from hlen)
    have hshort := hw.le_sum_add_runBound
    obtain ⟨hbusy, t, ht, hended⟩ := h.endsTimedOut hw hlen hs (hr.mono (by omega))
    exact ⟨_, t, by omega, by omega, ht, hended.done, hended.st, fun _ => by omega,
      fun hne => absurd hended.outcome hne, hbusy⟩

end Sys2Proof.Machine
end
